-- ==== Sys2Proof/Word.lean ====
section
/-! DEFINITION. The word types of IDOS-TMR (spec 00 R7, 10 R23, 30 R71): every value the bus or a
register carries as bits. All of them are unsigned (00 R10). -/

namespace Sys2Proof

/-- A 32-bit register value on the bus: `DATA` of a write, `RDATA` of a read (20 R54, 30 R71). -/
abbrev Word := BitVec 32

/-- A 16-bit value: the counter `CNT` and the compare target `CMP` (00 R7). -/
abbrev Half := BitVec 16

/-- A byte of a serialised descriptor (20 R52). -/
abbrev Byte := BitVec 8

/-- A register's byte offset in the 256-byte window (20 R50, 30 R71 field `OFF`). -/
abbrev Offset := BitVec 8

/-- The 3-bit clock-select code `CTRL.CS` (10 R24). -/
abbrev ClockCode := BitVec 3

/-- A 64-bit transaction descriptor `TXN64` (30 R71). -/
abbrev Descriptor := BitVec 64

end Sys2Proof
end

