-- ==== Sys2Proof/Machine/Agents.lean ====
section
/-! DEFINITION. The four agents of 00 R6 and what each may be asked to do: a turn of `TMR`, of `FG`, of `ISR`
or of `HOST`, and the operations the foreground's program consists of. -/

namespace Sys2Proof.Machine

/-- The driver and synthesizer procedures that `FG` runs (42 R161 to R164, 44 R202, R203). -/
inductive Proc where
  | init | enable | disable | isEnabled | millisecondsNow | microsecondsNow
deriving DecidableEq, Repr, Inhabited

/-- The unit-conversion functions (40 R111 to R114). -/
inductive Conversion where
  | usToTicks | ticksToUs | msToTicks | ticksToMs
deriving DecidableEq, Repr, Inhabited

/-- The order of the two reads of `microseconds_now()`, drawn per call (44 R203). -/
inductive ReadOrder where
  | msFirst | cntFirst
deriving DecidableEq, Repr, Inhabited

/-- One operation of the foreground's program. -/
inductive Request where
  /-- Issue the bus transaction with this descriptor (30 R70, 41 R130). -/
  | txn (descriptor : Descriptor)
  /-- `MemRead(addr, 4)`: a bus read at an absolute bus address (00 R11, 41 R144). -/
  | memRead (addr : Nat)
  /-- `MemWrite(addr, 4, data)`: a bus write at an absolute bus address (00 R11, 41 R144). -/
  | memWrite (addr : Nat) (data : Word)
  /-- Call a driver or synthesizer procedure (42, 44). -/
  | call (p : Proc)
  /-- Call a conversion on a natural below 2^32 (40 R110). -/
  | convert (f : Conversion) (x : Word)
deriving DecidableEq, Repr, Inhabited

/-- What `HOST` does in one step (60 R236). -/
inductive HostAct where
  /-- `GIE <- b`. -/
  | setGie (b : Bool)
  /-- The start of a critical section: save `g = GIE` and set `GIE <- 0`. -/
  | suspend
  /-- The end of a critical section: `GIE <- g`. -/
  | restore
deriving DecidableEq, Repr, Inhabited

/-- Which agent steps (00 R6). -/
inductive Turn where
  /-- One CPU clock cycle, an input-clock edge of the timer (43 R181). -/
  | tmr
  /-- The next step of the foreground. -/
  | fg
  /-- The host takes the compare-match interrupt, if it may (44 R200). -/
  | isr
  /-- A step of the host. -/
  | host (act : HostAct)
deriving DecidableEq, Repr, Inhabited

end Sys2Proof.Machine
end

