-- ==== Sys2Proof/Machine/Faults.lean ====
section
/-! DEFINITION. The fault codes of 60 R231 with the values they record. Such a fault is an element of the
model's fault record `FAULT` (10 R37): it is put into the state and stops only `FG` (60 R232, R233), so it
is not an `Outcome.fault` of a step (log entry 1). -/

namespace Sys2Proof.Machine

/-- One element of `FAULT`: a fault of 60 R231 with its recorded value. -/
inductive FaultRecord where
  /-- Code 1. Raised by decode (30 R74 steps 1 and 2); records the descriptor. -/
  | illegalTransaction (descriptor : Descriptor)
  /-- Code 2. Raised by decode (30 R74 step 3); records the offset. -/
  | badOffset (off : Offset)
  /-- Code 3. Raised by `WR_CNT` (41 R135) and `WR_MS` (41 R143); records the offset. -/
  | readOnlyWrite (off : Offset)
  /-- Code 4. Raised by `WR_CTRL`, `WR_CMP`, `WR_IER`, `WR_IFR` (30 R75); records offset and `DATA`. -/
  | reservedBits (off : Offset) (data : Word)
  /-- Code 5. Raised by `WR_CTRL` for `CS` 6 and 7 (41 R133); records the code. -/
  | reservedPrescaleCode (cs : ClockCode)
  /-- Code 6. Raised by the conversions (40 R111 to R114); records the operand. -/
  | durationOutOfRange (operand : Nat)
  /-- Code 7. Raised by every procedure but `init` while `INIT` is false (42 R168). -/
  | notInitialized
  /-- Code 8. Raised by a second `init` (42 R161, R168). -/
  | alreadyInitialized
deriving DecidableEq, Repr, Inhabited

/-- The fault's number in the table of 60 R231. -/
def FaultRecord.code : FaultRecord → Nat
  | .illegalTransaction _ => 1
  | .badOffset _ => 2
  | .readOnlyWrite _ => 3
  | .reservedBits _ _ => 4
  | .reservedPrescaleCode _ => 5
  | .durationOutOfRange _ => 6
  | .notInitialized => 7
  | .alreadyInitialized => 8

/-- Add a fault to the set `FAULT` (60 R232). The set is a list without repeats, oldest first, so adding a
member again changes nothing and no element is ever removed. -/
def recordFault (f : FaultRecord) (faults : List FaultRecord) : List FaultRecord :=
  if f ∈ faults then faults else faults ++ [f]

end Sys2Proof.Machine
end

