-- ==== Sys2Proof/Machine/Operands.lean ====
section
/-! DEFINITION. Operand assembly (30 R72, R75): the field a register write cuts from `DATA`, the reserved
bits above it, the zero-extension of a read (20 R54), and the divisor a clock-select code stands for
(10 R24). -/

namespace Sys2Proof.Machine

/-- `CS = DATA[2:0]` (30 R72). -/
def ctrlField (data : Word) : ClockCode := data.extractLsb' 0 3

/-- `DATA[31:3]`, reserved in a write of `CTRL` (30 R75, 10 R25). -/
def ctrlReserved (data : Word) : BitVec 29 := data.extractLsb' 3 29

/-- `TARGET = DATA[15:0]` (30 R72). -/
def cmpField (data : Word) : Half := data.extractLsb' 0 16

/-- `DATA[31:16]`, reserved in a write of `CMP` (30 R75, 10 R27). -/
def cmpReserved (data : Word) : BitVec 16 := data.extractLsb' 16 16

/-- `DATA[0]`: the new `CMIE` of a write of `IER`, and the clear request of a write of `IFR` (30 R72). -/
def bitField (data : Word) : Bool := data.getLsbD 0

/-- `DATA[31:1]`, reserved in a write of `IER` and of `IFR` (30 R75, 10 R28, R29). -/
def bitReserved (data : Word) : BitVec 31 := data.extractLsb' 1 31

/-- `zext_32` of a register field (00 R11, 20 R54). -/
def zext32 {n : Nat} (v : BitVec n) : Word := v.setWidth 32

/-- `zext_32` of a one-bit field (20 R54). -/
def bitWord (b : Bool) : Word := zext32 (BitVec.ofBool b)

/-- The divisor that a clock-select code selects (10 R24), with `div(0) = 1` (41 R133). `none` is a
reserved code, 6 or 7. The assignment of codes 1 to 5 is the spec's own decision D5 (log entry 10). -/
def divisor (cs : ClockCode) : Option Nat :=
  match cs.toNat with
  | 0 => some 1
  | 1 => some 1
  | 2 => some 8
  | 3 => some 64
  | 4 => some 256
  | 5 => some 1024
  | _ => none

/-- The code that selects a divisor, the table of 10 R24 read backwards (40 R106, 30 R78). -/
def clockCode (prescale : Nat) : Option ClockCode :=
  match prescale with
  | 1 => some 1#3
  | 8 => some 2#3
  | 64 => some 3#3
  | 256 => some 4#3
  | 1024 => some 5#3
  | _ => none

end Sys2Proof.Machine
end

