-- ==== Sys2Proof/Machine/Conversion.lean ====
section
/-! DEFINITION. The configuration record and unit conversion (40): the derived configuration constants R100 to
R106, configuration validity R107 and the conversion functions R111 to R114. All of it is pure arithmetic on
unbounded naturals with floor division (00 R10, 40 R110): it reads and writes no register. -/

namespace Sys2Proof

/-- `PRESCALE_SET` as 00 R8 gives it (from general knowledge; log entry 10). -/
def prescaleSet : List Nat := [1, 8, 64, 256, 1024]

/-- The build-time parameters of the block, arguments of the model and never state (00 R8, 10 R38, D46). The
defaults are the reference configuration (00 R9) and the spec's own value of `PRESCALE_SET` (log entry 10); they
only show that the type has a value, and no definition of the machine uses them. -/
structure ClockConfig where
  /-- `F_CPU`, the CPU clock frequency in Hz. -/
  fCpu : Nat := 16000000
  /-- `PRESCALE`, the prescale divisor. -/
  prescale : Nat := 64
  /-- `PRESCALE_SET`, the divisors that the hardware supports. -/
  prescaleSet : List Nat := Sys2Proof.prescaleSet
  /-- `TIMER_BASE`, the bus address of the register window. -/
  timerBase : Nat := 0
deriving DecidableEq, Repr, Inhabited

end Sys2Proof

namespace Sys2Proof.Machine

/-- `CPU_US`, the CPU cycles per microsecond (40 R100). -/
def cpuUs (cfg : ClockConfig) : Nat := cfg.fCpu / 1000000

/-- The two conversion strategies (40 R101). -/
inductive Tier where
  | small | large
deriving DecidableEq, Repr

/-- `TIER`: `SMALL` when `PRESCALE < CPU_US`, else `LARGE` (40 R101). -/
def tier (cfg : ClockConfig) : Tier := if cfg.prescale < cpuUs cfg then .small else .large

/-- `TICKS_PER_US`, used in tier `SMALL` (40 R102). -/
def ticksPerUs (cfg : ClockConfig) : Nat := cpuUs cfg / cfg.prescale

/-- `US_PER_TICK`, used in tier `LARGE` (40 R103). -/
def usPerTick (cfg : ClockConfig) : Nat := cfg.prescale / cpuUs cfg

/-- `MAX_US`, the longest representable span (40 R104, 90 C3). -/
def maxUs (cfg : ClockConfig) : Nat :=
  match tier cfg with
  | .large => 65535 * usPerTick cfg
  | .small => 65535 / ticksPerUs cfg

/-- The scaling of microseconds to ticks, without the range check (40 R111). -/
def scaleToTicks (cfg : ClockConfig) (u : Nat) : Nat :=
  match tier cfg with
  | .large => u / usPerTick cfg
  | .small => u * ticksPerUs cfg

/-- The scaling of ticks to microseconds, without the range check (40 R112). -/
def scaleToUs (cfg : ClockConfig) (t : Nat) : Nat :=
  match tier cfg with
  | .large => t * usPerTick cfg
  | .small => t / ticksPerUs cfg

/-- `us_to_ticks(u)` (40 R111). -/
def usToTicks (cfg : ClockConfig) (u : Nat) : Except FaultRecord Nat :=
  if u > maxUs cfg then .error (.durationOutOfRange u) else .ok (scaleToTicks cfg u)

/-- `ticks_to_us(t)` (40 R112). -/
def ticksToUs (cfg : ClockConfig) (t : Nat) : Except FaultRecord Nat :=
  if t > 65535 then .error (.durationOutOfRange t) else .ok (scaleToUs cfg t)

/-- `ms_to_ticks(m)`; the product `m * 1000` does not wrap and the fault records `m` (40 R113). -/
def msToTicks (cfg : ClockConfig) (m : Nat) : Except FaultRecord Nat :=
  if m * 1000 > maxUs cfg then .error (.durationOutOfRange m) else usToTicks cfg (m * 1000)

/-- `ticks_to_ms(t)` (40 R114). -/
def ticksToMs (cfg : ClockConfig) (t : Nat) : Except FaultRecord Nat :=
  match ticksToUs cfg t with
  | .ok u => .ok (u / 1000)
  | .error f => .error f

/-- The conversion a request names (40 R110). -/
def convert (cfg : ClockConfig) (f : Conversion) (x : Nat) : Except FaultRecord Nat :=
  match f with
  | .usToTicks => usToTicks cfg x
  | .ticksToUs => ticksToUs cfg x
  | .msToTicks => msToTicks cfg x
  | .ticksToMs => ticksToMs cfg x

/-- `TPM`, the ticks per millisecond: `us_to_ticks(1000)`, which is in range on a valid configuration
(40 R105). -/
def tpm (cfg : ClockConfig) : Nat := scaleToTicks cfg 1000

/-- `CS_CODE`, the `CTRL.CS` value that selects `PRESCALE` (40 R106). -/
def csCode (cfg : ClockConfig) : Option ClockCode := clockCode cfg.prescale

/-- A divisor that `set` supports: a member that the clock-select table of 10 R24 has a code for. Every member of
the spec's own set has one; a member without one can be selected by no `CTRL` write (log entry 10). -/
def supports (set : List Nat) (d : Nat) : Bool := decide (d ∈ set) && (clockCode d).isSome

/-- Configuration validity: V1 to V5 of 40 R107, one conjunct each. -/
def validConfig (cfg : ClockConfig) : Bool :=
  (decide (cfg.fCpu ≥ 1000000) && decide (cfg.fCpu % 1000000 = 0))
  && supports cfg.prescaleSet cfg.prescale
  && (match tier cfg with
      | .small => decide (cpuUs cfg % cfg.prescale = 0)
      | .large => decide (cfg.prescale % cpuUs cfg = 0))
  && (match tier cfg with
      | .small => true
      | .large => decide (1000 % usPerTick cfg = 0))
  && decide (1000 ≤ maxUs cfg)

end Sys2Proof.Machine
end

