-- ==== Sys2Proof/Config.lean ====
section
/-! DEFINITION. What is fixed for the machine and is no state: the build-time configuration (00 R8, 10 R38,
40 R107), an OPEN parameter of the spec, and the free values, the spec's `draw`s (00 R11). Neither has a
body, so no proof can use a value of it: a claim holds for every valid configuration and for every draw. -/

namespace Sys2Proof

/-- A configuration that 40 R107 accepts. The steps of the machine take one of these, so no run of an invalid
configuration exists. -/
structure ValidConfig where
  /-- The parameters. -/
  clock : ClockConfig
  /-- V1 to V5 hold of them (40 R107). -/
  valid : Machine.validConfig clock = true := by decide
deriving DecidableEq, Repr, Inhabited

/-- The reference configuration of 00 R9, at any base address. -/
def Config.reference (base : Nat) : ValidConfig where
  clock := ⟨16000000, 64, prescaleSet, base⟩
  valid := by
    simp [Machine.validConfig, Machine.supports, prescaleSet, Machine.tier, Machine.cpuUs, Machine.clockCode,
      Machine.usPerTick, Machine.maxUs]

/-- The configuration the firmware was built with (00 R8: OPEN; 40 R107: valid). -/
opaque Config.board : ValidConfig

/-- The draws of the prescaler phase (10 R33, 41 R133). -/
opaque Config.freePhase : Nat → Nat

/-- The draws of the read order of `microseconds_now()` (44 R203). -/
opaque Config.freeOrder : Nat → Machine.ReadOrder

/-- The agent that steps next where `State.turns` names none: any may (60 R240). -/
opaque Config.freeTurn : Nat → Machine.Turn

end Sys2Proof
end

