-- ==== Sys2Proof/Syntax.lean ====
section
/-! DEFINITION. The instruction set: the twelve bus transactions of 30 R73, one constructor per row of
`spec/opcode_table.json`. A read carries no operand (its `DATA` must be 0, 30 R71); a write carries its
whole 32-bit `DATA` (30 R72), reserved bits included, because the register's own rule checks them (30 R75). -/

namespace Sys2Proof

/-- One bus transaction: a read or a write of one register (30 R70, R73). -/
inductive Instr where
  /-- `RD_CTRL`, 41 R132. -/
  | rdCtrl
  /-- `WR_CTRL`, 41 R133. -/
  | wrCtrl (data : Word)
  /-- `RD_CNT`, 41 R134. -/
  | rdCnt
  /-- `WR_CNT`, 41 R135. -/
  | wrCnt (data : Word)
  /-- `RD_CMP`, 41 R136. -/
  | rdCmp
  /-- `WR_CMP`, 41 R137. -/
  | wrCmp (data : Word)
  /-- `RD_IER`, 41 R138. -/
  | rdIer
  /-- `WR_IER`, 41 R139. -/
  | wrIer (data : Word)
  /-- `RD_IFR`, 41 R140. -/
  | rdIfr
  /-- `WR_IFR`, 41 R141. -/
  | wrIfr (data : Word)
  /-- `RD_MS`, 41 R142. -/
  | rdMs
  /-- `WR_MS`, 41 R143. -/
  | wrMs (data : Word)
deriving DecidableEq, Repr, Inhabited

end Sys2Proof
end

