-- ==== Sys2Proof/Machine/RegisterMap.lean ====
section
/-! DEFINITION. The register map of 10 R23: six registers, their offsets, and the transaction that reads or
writes each (30 R73). -/

namespace Sys2Proof.Machine

/-- The six memory-mapped registers (10 R20, R23). -/
inductive Reg where
  | ctrl | cnt | cmp | ier | ifr | ms
deriving DecidableEq, Repr, Inhabited

/-- The register's byte offset in the window (10 R23). -/
def Reg.offset : Reg → Offset
  | .ctrl => 0x00#8
  | .cnt => 0x04#8
  | .cmp => 0x08#8
  | .ier => 0x0C#8
  | .ifr => 0x10#8
  | .ms => 0x14#8

/-- The register an offset names. `none` is an offset that is not a multiple of 4 or is past 0x14, which is
unmapped (10 R23, 20 R51, R53). -/
def Reg.ofOffset (off : Offset) : Option Reg :=
  match off.toNat with
  | 0x00 => some .ctrl
  | 0x04 => some .cnt
  | 0x08 => some .cmp
  | 0x0C => some .ier
  | 0x10 => some .ifr
  | 0x14 => some .ms
  | _ => none

/-- The read transaction of a register (30 R73, rows with `DIR` 0). -/
def Reg.readInstr : Reg → Instr
  | .ctrl => .rdCtrl
  | .cnt => .rdCnt
  | .cmp => .rdCmp
  | .ier => .rdIer
  | .ifr => .rdIfr
  | .ms => .rdMs

/-- The write transaction of a register (30 R73, rows with `DIR` 1). -/
def Reg.writeInstr (data : Word) : Reg → Instr
  | .ctrl => .wrCtrl data
  | .cnt => .wrCnt data
  | .cmp => .wrCmp data
  | .ier => .wrIer data
  | .ifr => .wrIfr data
  | .ms => .wrMs data

end Sys2Proof.Machine
end

