-- ==== Sys2Proof/WellFormed.lean ====
section
/-! DEFINITION. Well-formed transactions: 30 R72 says that the bits of `DATA` above a write's field "must be
0", and 10 R24 lists the legal clock-select codes. Every transaction, well formed or not, has an encoding
and a meaning; an ill-formed write is the one whose own rule raises `ReservedBits` or
`ReservedPrescaleCode`. `WR_CNT` and `WR_MS` ignore `DATA` (41 R135, R143), so nothing in it is ill formed. -/

namespace Sys2Proof

/-- The reserved bits of `DATA` are 0 and a clock-select code is one of 0 to 5 (30 R72, R75, 10 R24). -/
def Instr.wellFormed : Instr → Bool
  | .rdCtrl => true
  | .wrCtrl d => Machine.ctrlReserved d == 0#29 && (Machine.divisor (Machine.ctrlField d)).isSome
  | .rdCnt => true
  | .wrCnt _ => true
  | .rdCmp => true
  | .wrCmp d => Machine.cmpReserved d == 0#16
  | .rdIer => true
  | .wrIer d => Machine.bitReserved d == 0#31
  | .rdIfr => true
  | .wrIfr d => Machine.bitReserved d == 0#31
  | .rdMs => true
  | .wrMs _ => true

/-- `i` is well formed. -/
abbrev Instr.WellFormed (i : Instr) : Prop := i.wellFormed = true

end Sys2Proof
end

