-- ==== Sys2Proof/Decode.lean ====
section
/-! DEFINITION. The decoder of 30 R74, total on every 64-bit descriptor and rejecting by the fault the rule
names, then the encoder of 30 R71 and R77, the opcode map of 30 R73 as rows, and the little-endian
serialisation of a descriptor and of a register value (20 R52). -/

namespace Sys2Proof

open Sys2Proof.Machine

/-- Field `DIR`, bit 63: set for a write (30 R71). -/
def dirField (T : Descriptor) : Bool := T.getLsbD 63

/-- Field `RSV`, bits 62:40, which must be 0 (30 R71). -/
def rsvField (T : Descriptor) : BitVec 23 := T.extractLsb' 40 23

/-- Field `OFF`, bits 39:32 (30 R71, R72). -/
def offField (T : Descriptor) : Offset := T.extractLsb' 32 8

/-- Field `DATA`, bits 31:0 (30 R71, R72). -/
def dataField (T : Descriptor) : Word := T.extractLsb' 0 32

/-- The decoder, checking in the order of 30 R74: the first check that fails decides the fault. -/
def decode (T : Descriptor) : Except FaultRecord Instr :=
  if rsvField T ≠ 0#23 then .error (.illegalTransaction T)
  else if dirField T = false ∧ dataField T ≠ 0#32 then .error (.illegalTransaction T)
  else
    match Reg.ofOffset (offField T) with
    | none => .error (.badOffset (offField T))
    | some r => .ok (if dirField T then r.writeInstr (dataField T) else r.readInstr)

/-- A read's descriptor: `DIR = 0, OFF = offset(R), DATA = 0` (30 R77). -/
def readDescriptor (off : Offset) : Descriptor := off.setWidth 64 <<< 32

/-- A write's descriptor: `DIR = 1, OFF = offset(R), DATA = v` (30 R77). -/
def writeDescriptor (off : Offset) (data : Word) : Descriptor :=
  0x8000000000000000#64 ||| off.setWidth 64 <<< 32 ||| data.setWidth 64

/-- The descriptor of a transaction (30 R71, R73). -/
def encode : Instr → Descriptor
  | .rdCtrl => readDescriptor 0x00#8
  | .wrCtrl d => writeDescriptor 0x00#8 d
  | .rdCnt => readDescriptor 0x04#8
  | .wrCnt d => writeDescriptor 0x04#8 d
  | .rdCmp => readDescriptor 0x08#8
  | .wrCmp d => writeDescriptor 0x08#8 d
  | .rdIer => readDescriptor 0x0C#8
  | .wrIer d => writeDescriptor 0x0C#8 d
  | .rdIfr => readDescriptor 0x10#8
  | .wrIfr d => writeDescriptor 0x10#8 d
  | .rdMs => readDescriptor 0x14#8
  | .wrMs d => writeDescriptor 0x14#8 d

/-- One row of the opcode map: a descriptor `T` selects it when `(T & mask) = pattern` (30 R73). -/
structure OpcodeRow where
  mnemonic : String
  pattern : Descriptor
  mask : Descriptor
  write : Bool
  reg : Reg
deriving DecidableEq, Repr

/-- `T` selects the row (30 R73). -/
def OpcodeRow.selects (r : OpcodeRow) (T : Descriptor) : Bool := (T &&& r.mask) == r.pattern

/-- The transaction a row stands for, with the `DATA` of a write (30 R72). -/
def OpcodeRow.instr (r : OpcodeRow) (data : Word) : Instr :=
  if r.write then r.reg.writeInstr data else r.reg.readInstr

/-- The complete opcode map, copied from the table of 30 R73. -/
def opcodeRows : List OpcodeRow :=
  [ ⟨"RD_CTRL", 0x0000000000000000#64, 0xFFFFFFFFFFFFFFFF#64, false, .ctrl⟩,
    ⟨"WR_CTRL", 0x8000000000000000#64, 0xFFFFFFFF00000000#64, true, .ctrl⟩,
    ⟨"RD_CNT", 0x0000000400000000#64, 0xFFFFFFFFFFFFFFFF#64, false, .cnt⟩,
    ⟨"WR_CNT", 0x8000000400000000#64, 0xFFFFFFFF00000000#64, true, .cnt⟩,
    ⟨"RD_CMP", 0x0000000800000000#64, 0xFFFFFFFFFFFFFFFF#64, false, .cmp⟩,
    ⟨"WR_CMP", 0x8000000800000000#64, 0xFFFFFFFF00000000#64, true, .cmp⟩,
    ⟨"RD_IER", 0x0000000C00000000#64, 0xFFFFFFFFFFFFFFFF#64, false, .ier⟩,
    ⟨"WR_IER", 0x8000000C00000000#64, 0xFFFFFFFF00000000#64, true, .ier⟩,
    ⟨"RD_IFR", 0x0000001000000000#64, 0xFFFFFFFFFFFFFFFF#64, false, .ifr⟩,
    ⟨"WR_IFR", 0x8000001000000000#64, 0xFFFFFFFF00000000#64, true, .ifr⟩,
    ⟨"RD_MS", 0x0000001400000000#64, 0xFFFFFFFFFFFFFFFF#64, false, .ms⟩,
    ⟨"WR_MS", 0x8000001400000000#64, 0xFFFFFFFF00000000#64, true, .ms⟩ ]

/-- The eight bytes of a descriptor, least-significant byte first (20 R52). -/
def descriptorBytes (T : Descriptor) : List Byte :=
  [ T.extractLsb' 0 8, T.extractLsb' 8 8, T.extractLsb' 16 8, T.extractLsb' 24 8,
    T.extractLsb' 32 8, T.extractLsb' 40 8, T.extractLsb' 48 8, T.extractLsb' 56 8 ]

/-- The descriptor that eight bytes serialise, least-significant byte first (20 R52); there is one
descriptor length (30 R76). -/
def descriptorOfBytes : List Byte → Option Descriptor
  | [b0, b1, b2, b3, b4, b5, b6, b7] =>
    some (b0.setWidth 64 ||| b1.setWidth 64 <<< 8 ||| b2.setWidth 64 <<< 16 ||| b3.setWidth 64 <<< 24 |||
      b4.setWidth 64 <<< 32 ||| b5.setWidth 64 <<< 40 ||| b6.setWidth 64 <<< 48 ||| b7.setWidth 64 <<< 56)
  | _ => none

/-- The four bytes of a register value on a narrower bus, least-significant byte first (20 R52). -/
def wordBytes (v : Word) : List Byte :=
  [v.extractLsb' 0 8, v.extractLsb' 8 8, v.extractLsb' 16 8, v.extractLsb' 24 8]

/-- The register value that four bytes carry, least-significant byte first (20 R52). -/
def wordOfBytes : List Byte → Option Word
  | [b0, b1, b2, b3] =>
    some (b0.setWidth 32 ||| b1.setWidth 32 <<< 8 ||| b2.setWidth 32 <<< 16 ||| b3.setWidth 32 <<< 24)
  | _ => none

/-- Decode a serialised descriptor. `none`: not eight bytes, or a descriptor that decode rejects. -/
def decodeBytes (bytes : List Byte) : Option Instr :=
  match descriptorOfBytes bytes with
  | none => none
  | some T =>
    match decode T with
    | .ok i => some i
    | .error _ => none

/-- The instruction of an opcode-table row whose low `nbits` bits are those of `w` and whose other bits are
0, laid out as the hardware serialises it and given to the decoder. -/
def decodeTableWord (nbits w : Nat) : Option Instr :=
  decodeBytes (descriptorBytes (BitVec.ofNat 64 (w % 2 ^ nbits)))

end Sys2Proof
end

