-- ==== Sys2Proof/Machine/Flags.lean ====
section
/-! DEFINITION. The block's only flag, the compare-match flag `IFR.CMF` (10 R29), and the two lines
computed from it: the interrupt request (43 R185) and the trigger of the service step (44 R200). -/

namespace Sys2Proof.Machine

/-- `IRQ = CMIE AND CMF`, a level and no state (10 R34, 43 R185, 60 R234). -/
def irqLevel (cmie cmf : Bool) : Bool := cmie && cmf

/-- The trigger of the service step: `GIE = 1 AND IRQ = 1` (44 R200). -/
def serviceTrigger (gie cmie cmf : Bool) : Bool := gie && irqLevel cmie cmf

/-- A tick matches when the counter equals the compare target current at that tick (43 R182). -/
def compareMatch (cnt cmp : Half) : Bool := cnt == cmp

/-- `CMF` after a tick: set by a match, else as before (43 R182); a flag already set stays set (43 R187). -/
def flagAfterTick (cmf matched : Bool) : Bool := cmf || matched

/-- `CMF` after a legal write of `IFR`: cleared by a 1, left alone by a 0 (10 R29, 41 R141). -/
def flagAfterClear (cmf request : Bool) : Bool := if request then false else cmf

end Sys2Proof.Machine
end

