-- ==== Sys2Proof/Machine/State.lean ====
section
/-! DEFINITION. The state of IDOS-TMR as plain data: the record of 10 R40 (the six registers, the prescaler
phase, `INIT`, `GIE`, the foreground's procedure state, `FAULT`) and the model's own bookkeeping, each field
marked as such; the state after reset (10 R39, 70 R260); and the reasons a step can stop. The block has no
memory, no program counter and no general registers (10 R20, R21, 20 R50). -/

namespace Sys2Proof.Machine

/-- The foreground's procedure state: the running procedure, its next step and its locals (10 R36). Each
constructor is one step of one procedure, numbered in `Frame.step` as its rule numbers it. -/
inductive Frame where
  /-- No procedure is running. -/
  | idle
  | initCompare
  | initFlags
  | initEnable
  | initClock
  | enableFlags
  | enableInterrupt
  | disableFlags
  | disableInterrupt
  | isEnabledRead
  | isEnabledReturn (r : Word)
  | millisRead
  | millisReturn (m : Word)
  | microsDraw
  /-- Step 3, order `MS_FIRST`, first read: `MS`. -/
  | microsMsThenCnt
  /-- Step 3, order `MS_FIRST`, second read: `CNT`. -/
  | microsCntAfter (m : Word)
  /-- Step 3, order `CNT_FIRST`, first read: `CNT`. -/
  | microsCntThenMs
  /-- Step 3, order `CNT_FIRST`, second read: `MS`. -/
  | microsMsAfter (c : Word)
  | microsConvert (m c : Word)
  | microsReturn (m : Word) (sub : Nat)
deriving DecidableEq, Repr, Inhabited

/-- The name of the running procedure (10 R36). -/
def Frame.proc : Frame → Option Proc
  | .idle => none
  | .initCompare | .initFlags | .initEnable | .initClock => some .init
  | .enableFlags | .enableInterrupt => some .enable
  | .disableFlags | .disableInterrupt => some .disable
  | .isEnabledRead | .isEnabledReturn _ => some .isEnabled
  | .millisRead | .millisReturn _ => some .millisecondsNow
  | .microsDraw | .microsMsThenCnt | .microsCntAfter _ | .microsCntThenMs | .microsMsAfter _
  | .microsConvert _ _ | .microsReturn _ _ => some .microsecondsNow

/-- `FG.step`, the number of the next step in the running procedure's rule (10 R21, R36). -/
def Frame.step : Frame → Nat
  | .idle => 0
  | .initCompare | .enableFlags | .disableFlags | .isEnabledRead | .millisRead | .microsDraw => 2
  | .initFlags | .enableInterrupt | .disableInterrupt | .isEnabledReturn _ | .millisReturn _ => 3
  | .microsMsThenCnt | .microsCntAfter _ | .microsCntThenMs | .microsMsAfter _ => 3
  | .initEnable | .microsConvert _ _ => 4
  | .initClock | .microsReturn _ _ => 5

/-- How the foreground's last operation completed: a read with `RDATA`, a write with no data, either with a
fault instead (30 R71, 41 R130). The model's own field (log entry 4). -/
inductive Completion where
  /-- Nothing has completed since reset. -/
  | nothing
  | rdata (value : Word)
  | written
  | faulted (f : FaultRecord)
deriving DecidableEq, Repr, Inhabited

/-- A value that a procedure or a conversion returned, part of a run's observation (70 R273). -/
inductive Returned where
  | isEnabled (b : Bool)
  | millisecondsNow (m : Word)
  | microsecondsNow (u : Word)
  | converted (f : Conversion) (x n : Nat)
deriving DecidableEq, Repr, Inhabited

/-- The state of the machine. -/
structure State where
  /-- `CTRL.CS`, legal 0 to 5 (10 R24). -/
  cs : ClockCode
  /-- `CNT.COUNT` (10 R26). -/
  cnt : Half
  /-- `CMP.TARGET` (10 R27). -/
  cmp : Half
  /-- `IER.CMIE` (10 R28). -/
  cmie : Bool
  /-- `IFR.CMF` (10 R29). -/
  cmf : Bool
  /-- `MS.ELAPSED`, the tick accumulator (10 R31). -/
  ms : Word
  /-- `PSC`, the prescaler phase (10 R33). -/
  psc : Nat
  /-- `INIT`, the driver's initialised mark (10 R35). -/
  initDone : Bool
  /-- `GIE`, the host's global interrupt enable (10 R37). -/
  gie : Bool
  /-- `FG`, the foreground's procedure state (10 R36). -/
  frame : Frame
  /-- `FAULT`, the set of faults raised so far: no repeats, oldest first (10 R37, 60 R232). -/
  faults : List FaultRecord
  /-- The model's own: how `FG`'s last operation completed, with `RDATA` (41 R130). -/
  completion : Completion
  /-- The model's own: the values returned so far, newest first (70 R273). -/
  returned : List Returned
  /-- The model's own: the operations `FG` has yet to start, next first (70 R273 "its program"). -/
  program : List Request
  /-- The model's own: which agents step next, first to last (60 R240). -/
  turns : List Turn
  /-- The model's own: how many draws have been taken (00 R11 `draw`). -/
  draws : Nat
  /-- The model's own: the values of `GIE` that open critical sections saved, innermost first (60 R236). -/
  savedGie : List Bool
deriving DecidableEq, Repr, Inhabited

/-- The machine right after reset (10 R39, 70 R260, R261): every register 0, the clock stopped, `INIT`
false, `FG` idle, `GIE` 0, `FAULT` empty. The model's own fields are empty and the draw counter is 0 (log
entry 7); no operation and no turn is given (log entry 6). -/
def State.reset : State where
  cs := 0#3
  cnt := 0#16
  cmp := 0#16
  cmie := false
  cmf := false
  ms := 0#32
  psc := 0
  initDone := false
  gie := false
  frame := .idle
  faults := []
  completion := .nothing
  returned := []
  program := []
  turns := []
  draws := 0
  savedGie := []

/-- The reasons a step can stop the whole machine. The spec's own faults (60 R231) are not among them: they
are recorded in `State.faults` and stop only `FG` (60 R233). -/
inductive Fault where
  /-- Raised by an input-clock edge in a state whose `CTRL.CS` holds a reserved code, 6 or 7, which no rule
  ever writes (41 R132) and for which the spec gives no divisor (10 R24). Safe: no run from reset reaches
  such a state. -/
  | reservedClockSelect (cs : ClockCode)
deriving DecidableEq, Repr

/-- The reasons a step is refused. -/
inductive Refusal where
  /-- Raised by `exec` for an instruction without a meaning; no arm raises it. Safe. -/
  | notModelled (mnemonic : String)
  /-- Raised by `configure` for a configuration that 40 R107 does not accept, before any run of it; no step
  raises it. Safe: the spec refuses such a configuration by this name. -/
  | invalidConfiguration
  /-- Raised when `FG` reads or writes a bus address outside the 256-byte window at `TIMER_BASE` (20 R50):
  another device's address, which the spec does not describe (00 R5, 60 R245). Safe. -/
  | outsideWindow (addr : Nat)
deriving DecidableEq, Repr

end Sys2Proof.Machine
end

