-- ==== Sys2Proof/Machine/Ops.lean ====
section
/-! DEFINITION. The named operations over the state: reading a register, completing a transaction, raising a
fault (60 R232), selecting the clock (41 R133), the draws, the service step that is the interrupt's entry,
handler and return in one (44 R200, 60 R238), and the steps of the host (60 R236). -/

namespace Sys2Proof.Machine

open Host (Outcome)

/-- `reg[R]` as the bus reads it: `zext_32` of the register's field, reserved bits 0 (10 R23, 20 R54). -/
def State.readReg (s : State) : Reg → Word
  | .ctrl => zext32 s.cs
  | .cnt => zext32 s.cnt
  | .cmp => zext32 s.cmp
  | .ier => bitWord s.cmie
  | .ifr => bitWord s.cmf
  | .ms => s.ms

/-- Record how the foreground's operation completed (41 R130). -/
def State.complete (s : State) (c : Completion) : State := { s with completion := c }

/-- `raise <Fault>(info)`: the operation completes with the fault, which is added to `FAULT`, and nothing
else changes (00 R11, 41 R130, 60 R232). -/
def State.raise (s : State) (f : FaultRecord) : State :=
  { s with faults := recordFault f s.faults, completion := .faulted f }

/-- A read completes with the register's value and has no side effect (20 R56, 41 R130). -/
def completeRead (r : Reg) (s : State) : Outcome State Fault Refusal :=
  .next (s.complete (.rdata (s.readReg r)))

/-- A write that its rule accepts completes with no data, in the state the rule gives (41 R130). -/
def completeWrite (s : State) : Outcome State Fault Refusal := .next (s.complete .written)

/-- An operation that raises a fault ends with it; the machine goes on (60 R232, R233; log entry 1). -/
def completeFault (f : FaultRecord) (s : State) : Outcome State Fault Refusal := .next (s.raise f)

/-- The `k`-th draw of a prescaler phase in `[0, d - 1]` (10 R33). -/
def drawPhase (k d : Nat) : Nat := Config.freePhase k % d

/-- `CTRL.CS <- cs`, with a draw of `PSC` when the code changes and no other effect (41 R133). -/
def State.selectClock (s : State) (cs : ClockCode) (d : Nat) : State :=
  if cs = s.cs then s
  else { s with cs := cs, psc := drawPhase s.draws d, draws := s.draws + 1 }

/-- `IRQ`, the interrupt request line (10 R34, 43 R185). -/
def State.irq (s : State) : Bool := irqLevel s.cmie s.cmf

/-- The service step may be taken (44 R200). -/
def State.serviceEnabled (s : State) : Bool := serviceTrigger s.gie s.cmie s.cmf

/-- The service step of `ISR`, entry, handler and return in one: `CMF <- 0`, `MS <- (MS + 1) mod 2^32`, and
nothing else (44 R200, 60 R238). -/
def service (s : State) : State := { s with cmf := false, ms := s.ms + 1#32 }

/-- A turn of `ISR`: the service step where it is enabled; otherwise the host takes no interrupt and nothing
changes (44 R200, 60 R235; log entry 3). -/
def serviceTurn (s : State) : State := if s.serviceEnabled then service s else s

/-- A turn of `HOST`: set `GIE`, or open or close a critical section (60 R236, 20 R61). A close with no
section open changes nothing (log entry 8). -/
def hostTurn (act : HostAct) (s : State) : State :=
  match act with
  | .setGie b => { s with gie := b }
  | .suspend => { s with gie := false, savedGie := s.gie :: s.savedGie }
  | .restore =>
    match s.savedGie with
    | [] => s
    | g :: rest => { s with gie := g, savedGie := rest }

/-- A reset of the whole system, the only reset there is: every state element at its reset value (70 R260,
R262). It is no step of an agent (00 R6): it begins a new run (log entry 9). -/
def systemReset (_s : State) : State := State.reset

end Sys2Proof.Machine
end

