-- ==== Sys2Proof/Machine/Transactions.lean ====
section
/-! DEFINITION. The meaning of each of the twelve bus transactions (41 R132 to R143), in the order of the
opcode map. Each is one atomic step of `FG` on the state it finds (41 R130). -/

namespace Sys2Proof.Machine

open Host (Outcome)

/-- `RD_CTRL`: read the clock select (41 R132). -/
def execRdCtrl (s : State) : Outcome State Fault Refusal := completeRead .ctrl s

/-- `WR_CTRL`: set the prescaler. The reserved bits are checked before the code (41 R133, 60 R241). -/
def execWrCtrl (data : Word) (s : State) : Outcome State Fault Refusal :=
  if ctrlReserved data ≠ 0#29 then completeFault (.reservedBits 0x00#8 data) s
  else
    match divisor (ctrlField data) with
    | none => completeFault (.reservedPrescaleCode (ctrlField data)) s
    | some d => completeWrite (s.selectClock (ctrlField data) d)

/-- `RD_CNT`: read the counter (41 R134). -/
def execRdCnt (s : State) : Outcome State Fault Refusal := completeRead .cnt s

/-- `WR_CNT`: forbidden, whatever `DATA` (41 R135). -/
def execWrCnt (_data : Word) (s : State) : Outcome State Fault Refusal :=
  completeFault (.readOnlyWrite 0x04#8) s

/-- `RD_CMP`: read the compare target (41 R136). -/
def execRdCmp (s : State) : Outcome State Fault Refusal := completeRead .cmp s

/-- `WR_CMP`: set the compare target, at once and without touching the flag (41 R137). -/
def execWrCmp (data : Word) (s : State) : Outcome State Fault Refusal :=
  if cmpReserved data ≠ 0#16 then completeFault (.reservedBits 0x08#8 data) s
  else completeWrite { s with cmp := cmpField data }

/-- `RD_IER`: read the interrupt enable (41 R138). -/
def execRdIer (s : State) : Outcome State Fault Refusal := completeRead .ier s

/-- `WR_IER`: set or clear the interrupt enable (41 R139). -/
def execWrIer (data : Word) (s : State) : Outcome State Fault Refusal :=
  if bitReserved data ≠ 0#31 then completeFault (.reservedBits 0x0C#8 data) s
  else completeWrite { s with cmie := bitField data }

/-- `RD_IFR`: read the compare-match flag, which the read does not clear (41 R140). -/
def execRdIfr (s : State) : Outcome State Fault Refusal := completeRead .ifr s

/-- `WR_IFR`: clear the compare-match flag by writing a 1 (41 R141). -/
def execWrIfr (data : Word) (s : State) : Outcome State Fault Refusal :=
  if bitReserved data ≠ 0#31 then completeFault (.reservedBits 0x10#8 data) s
  else completeWrite { s with cmf := flagAfterClear s.cmf (bitField data) }

/-- `RD_MS`: read the tick accumulator (41 R142). -/
def execRdMs (s : State) : Outcome State Fault Refusal := completeRead .ms s

/-- `WR_MS`: forbidden, whatever `DATA` (41 R143). -/
def execWrMs (_data : Word) (s : State) : Outcome State Fault Refusal :=
  completeFault (.readOnlyWrite 0x14#8) s

end Sys2Proof.Machine
end

