-- ==== Sys2Proof/Machine/Dispatch.lean ====
section
/-! DEFINITION. The dispatch of a bus transaction to its meaning, one arm per row of 30 R73. -/

namespace Sys2Proof.Machine

def exec (i : Instr) (s : State) : Host.Outcome State Fault Refusal :=
  match i with
  | .rdCtrl => Sys2Proof.Machine.execRdCtrl s
  | .wrCtrl data => Sys2Proof.Machine.execWrCtrl data s
  | .rdCnt => Sys2Proof.Machine.execRdCnt s
  | .wrCnt data => Sys2Proof.Machine.execWrCnt data s
  | .rdCmp => Sys2Proof.Machine.execRdCmp s
  | .wrCmp data => Sys2Proof.Machine.execWrCmp data s
  | .rdIer => Sys2Proof.Machine.execRdIer s
  | .wrIer data => Sys2Proof.Machine.execWrIer data s
  | .rdIfr => Sys2Proof.Machine.execRdIfr s
  | .wrIfr data => Sys2Proof.Machine.execWrIfr data s
  | .rdMs => Sys2Proof.Machine.execRdMs s
  | .wrMs data => Sys2Proof.Machine.execWrMs data s

end Sys2Proof.Machine
end

