-- ==== Sys2Proof/Machine/Procedures.lean ====
section
/-! DEFINITION. The agent `FG`: a bus transaction from its descriptor (30 R74, 41 R130), a bus access at an
absolute address (41 R144), the driver procedures (42 R161 to R164), the synthesizer procedures (44 R202,
R203) and the conversions (40), one numbered step of a procedure per step of `FG` (00 R12). -/

namespace Sys2Proof.Machine

open Host (Outcome)

/-- One bus transaction: decode, then the selected rule, or the fault that decode raises (41 R130). -/
def transact (T : Descriptor) (s : State) : Outcome State Fault Refusal :=
  match decode T with
  | .error f => completeFault f s
  | .ok i => exec i s

/-- The bus address of a register, `TIMER_BASE + OFF` (41 R144). -/
def busAddress (cfg : ClockConfig) (off : Offset) : Nat := cfg.timerBase + off.toNat

/-- The offset in the 256-byte register window at `TIMER_BASE` (20 R50); `none` is outside it. -/
def windowOffset (cfg : ClockConfig) (addr : Nat) : Option Offset :=
  if cfg.timerBase ≤ addr ∧ addr < cfg.timerBase + 256 then some (BitVec.ofNat 8 (addr - cfg.timerBase))
  else none

/-- `MemRead(addr, 4)` (00 R11). -/
def memRead (cfg : ClockConfig) (addr : Nat) (s : State) : Outcome State Fault Refusal :=
  match windowOffset cfg addr with
  | some off => transact (readDescriptor off) s
  | none => .refused (.outsideWindow addr)

/-- `MemWrite(addr, 4, data)` (00 R11). -/
def memWrite (cfg : ClockConfig) (addr : Nat) (data : Word) (s : State) : Outcome State Fault Refusal :=
  match windowOffset cfg addr with
  | some off => transact (writeDescriptor off data) s
  | none => .refused (.outsideWindow addr)

/-- A procedure's write step: go to frame `f` when the write completed; a fault leaves the procedure where
it is, with `FG` stopped (60 R232, R233). -/
def afterWrite (o : Outcome State Fault Refusal) (f : Frame) : Outcome State Fault Refusal :=
  match o with
  | .next s =>
    match s.completion with
    | .written => .next { s with frame := f }
    | _ => .next s
  | .fault r => .fault r
  | .refused r => .refused r

/-- A procedure's read step: the value read goes into the local that frame `k` holds. -/
def afterRead (o : Outcome State Fault Refusal) (k : Word → Frame) : Outcome State Fault Refusal :=
  match o with
  | .next s =>
    match s.completion with
    | .rdata v => .next { s with frame := k v }
    | _ => .next s
  | .fault r => .fault r
  | .refused r => .refused r

/-- A procedure returns a value: it goes on the list of returned values and `FG` is idle again. -/
def State.giveBack (s : State) (r : Returned) : State :=
  { s with frame := .idle, returned := r :: s.returned }

/-- `(m * 1000 + sub) mod 2^32` (44 R203 step 5). -/
def composeMicros (m : Word) (sub : Nat) : Word := BitVec.ofNat 32 (m.toNat * 1000 + sub)

/-- A step that is a bus write of the register at `off`, then frame `f`. -/
def writeStep (cfg : ClockConfig) (off : Offset) (data : Word) (f : Frame) (s : State) :
    Outcome State Fault Refusal :=
  afterWrite (memWrite cfg (busAddress cfg off) data s) f

/-- A step that is a bus read of the register at `off`, then the frame that `k` makes of the value. -/
def readStep (cfg : ClockConfig) (off : Offset) (k : Word → Frame) (s : State) :
    Outcome State Fault Refusal :=
  afterRead (memRead cfg (busAddress cfg off) s) k

/-- A valid configuration has a clock-select code for its divisor (40 R106, R107 V2). -/
theorem csCode_isSome (cfg : ValidConfig) : (csCode cfg.clock).isSome = true := by
  have h := cfg.valid
  simp only [validConfig, supports, Bool.and_eq_true] at h
  exact h.1.1.1.2.2

/-- `CS_CODE` of a valid configuration (40 R106). -/
def initCode (cfg : ValidConfig) : ClockCode := (csCode cfg.clock).get (csCode_isSome cfg)

/-- One step of the running procedure, by its rule's step number (00 R12). -/
def procStep (cfg : ValidConfig) (s : State) : Outcome State Fault Refusal :=
  match s.frame with
  | .idle => .next s
  | .initCompare => writeStep cfg.clock 0x08#8 (BitVec.ofNat 32 (tpm cfg.clock - 1)) .initFlags s
  | .initFlags => writeStep cfg.clock 0x10#8 1#32 .initEnable s
  | .initEnable => writeStep cfg.clock 0x0C#8 1#32 .initClock s
  | .initClock => writeStep cfg.clock 0x00#8 (zext32 (initCode cfg)) .idle s
  | .enableFlags => writeStep cfg.clock 0x10#8 1#32 .enableInterrupt s
  | .enableInterrupt => writeStep cfg.clock 0x0C#8 1#32 .idle s
  | .disableFlags => writeStep cfg.clock 0x10#8 1#32 .disableInterrupt s
  | .disableInterrupt => writeStep cfg.clock 0x0C#8 0#32 .idle s
  | .isEnabledRead => readStep cfg.clock 0x0C#8 .isEnabledReturn s
  | .isEnabledReturn r => .next (s.giveBack (.isEnabled (r.getLsbD 0)))
  | .millisRead => readStep cfg.clock 0x14#8 .millisReturn s
  | .millisReturn m => .next (s.giveBack (.millisecondsNow m))
  | .microsDraw =>
    match Config.freeOrder s.draws with
    | .msFirst => .next { s with frame := .microsMsThenCnt, draws := s.draws + 1 }
    | .cntFirst => .next { s with frame := .microsCntThenMs, draws := s.draws + 1 }
  | .microsMsThenCnt => readStep cfg.clock 0x14#8 .microsCntAfter s
  | .microsCntAfter m => readStep cfg.clock 0x04#8 (fun c => .microsConvert m c) s
  | .microsCntThenMs => readStep cfg.clock 0x04#8 .microsMsAfter s
  | .microsMsAfter c => readStep cfg.clock 0x14#8 (fun m => .microsConvert m c) s
  | .microsConvert m c =>
    match ticksToUs cfg.clock (cmpField c).toNat with
    | .ok sub => .next { s with frame := .microsReturn m sub }
    | .error f => completeFault f s
  | .microsReturn m sub => .next (s.giveBack (.microsecondsNow (composeMicros m sub)))

/-- The frame of a procedure's step 2. -/
def Proc.secondStep : Proc → Frame
  | .init => .initCompare
  | .enable => .enableFlags
  | .disable => .disableFlags
  | .isEnabled => .isEnabledRead
  | .millisecondsNow => .millisRead
  | .microsecondsNow => .microsDraw

/-- Step 1 of a procedure: the check of `INIT`, which a first `init()` then sets (42 R161 to R164, R168,
44 R202, R203). -/
def checkInit (p : Proc) (s : State) : Outcome State Fault Refusal :=
  if p = .init then
    if s.initDone then completeFault .alreadyInitialized s
    else .next { s with initDone := true, frame := p.secondStep }
  else if s.initDone then .next { s with frame := p.secondStep }
  else completeFault .notInitialized s

/-- `FG` starts the next operation of its program. A raw transaction is never checked against `INIT` (43 R189,
42 R168). -/
def startRequest (cfg : ValidConfig) (r : Request) (s : State) : Outcome State Fault Refusal :=
  match r with
  | .txn T => transact T s
  | .memRead addr => memRead cfg.clock addr s
  | .memWrite addr data => memWrite cfg.clock addr data s
  | .call p => checkInit p s
  | .convert f x =>
    match convert cfg.clock f x.toNat with
    | .ok n => .next (s.giveBack (.converted f x.toNat n))
    | .error e => completeFault e s

/-- A turn of `FG`: nothing once it has faulted (60 R233); else the next step of the running procedure, or
the next operation of its program; nothing when the program is over (70 R273). -/
def foregroundTurn (cfg : ValidConfig) (s : State) : Outcome State Fault Refusal :=
  if s.faults ≠ [] then .next s
  else if s.frame ≠ .idle then procStep cfg s
  else
    match s.program with
    | [] => .next s
    | r :: rest => startRequest cfg r { s with program := rest }

end Sys2Proof.Machine
end

