-- ==== Sys2Proof/Machine/Timer.lean ====
section
/-! DEFINITION. The agent `TMR`: the prescaler's input-clock edge (43 R181), the tick (43 R182) and the
tick-level step that 43 R188 lets a model use in the edge's place. -/

namespace Sys2Proof.Machine

open Host (Outcome)

/-- A tick: the counter is cleared and the flag set on a compare match, else the counter is incremented
mod 2^16 (43 R182, R183; the wrap without a match sets no flag, 43 R184). -/
def tick (s : State) : State :=
  if compareMatch s.cnt s.cmp then { s with cnt := 0#16, cmf := flagAfterTick s.cmf true }
  else { s with cnt := s.cnt + 1#16, cmf := flagAfterTick s.cmf false }

/-- A turn of `TMR`: no step while `CS = 0` (43 R180), else one input-clock edge, which ticks when the
prescaler phase reaches the divisor (43 R181). -/
def clockEdge (s : State) : Outcome State Fault Refusal :=
  if s.cs = 0#3 then .next s
  else
    match divisor s.cs with
    | none => .fault (.reservedClockSelect s.cs)
    | some d => .next (if s.psc + 1 = d then tick { s with psc := 0 } else { s with psc := s.psc + 1 })

/-- The step `TICK` of a model without the prescaler phase, enabled whenever `CS != 0` (43 R188). -/
def tickLevelStep (s : State) : State := if s.cs = 0#3 then s else tick s

/-- `n` ticks in a row. -/
def ticks : Nat → State → State
  | 0, s => s
  | n + 1, s => ticks n (tick s)

/-- `n` turns of `TMR` in a row; a state at which an edge stops the machine is kept. -/
def clockEdges : Nat → State → State
  | 0, s => s
  | n + 1, s =>
    match clockEdge s with
    | .next s' => clockEdges n s'
    | _ => s

end Sys2Proof.Machine
end

