-- ==== Sys2Proof/Machine/Schedule.lean ====
section
/-! DEFINITION. The four agents step one at a time, each step atomic, in an order the spec leaves open
(20 R58, 60 R240): the turns listed in the state first, then turns drawn freely (log entry 2). And the refusal of an
invalid configuration, before any of them steps (40 R107). -/

namespace Sys2Proof.Machine

open Host (Outcome)

/-- One step of the agent whose turn it is. An agent that has no step enabled leaves the state alone (log
entry 3). -/
def takeTurn (cfg : ValidConfig) (t : Turn) (s : State) : Outcome State Fault Refusal :=
  match t with
  | .tmr => clockEdge s
  | .fg => foregroundTurn cfg s
  | .isr => .next (serviceTurn s)
  | .host act => .next (hostTurn act s)

/-- The agent that steps next, and the state in which it steps: the first listed turn, or a free draw. -/
def nextTurn (s : State) : Turn × State :=
  match s.turns with
  | t :: rest => (t, { s with turns := rest })
  | [] => (Config.freeTurn s.draws, { s with draws := s.draws + 1 })

/-- One step of the machine built with configuration `cfg`. -/
def stepWith (cfg : ValidConfig) (s : State) : Outcome State Fault Refusal :=
  takeTurn cfg (nextTurn s).1 (nextTurn s).2

/-- The given turns one after another, stopping at the first that stops the machine. -/
def runTurns (cfg : ValidConfig) : List Turn → State → Outcome State Fault Refusal
  | [], s => .next s
  | t :: ts, s =>
    match takeTurn cfg t s with
    | .next s' => runTurns cfg ts s'
    | .fault r => .fault r
    | .refused r => .refused r

/-- A run of the block built with the parameters `cfg`: `refuse InvalidConfiguration`, before anything of the run
happens, unless they are valid (40 R107, 60 R231). -/
def configure (cfg : ClockConfig) (run : ValidConfig → Outcome State Fault Refusal) :
    Outcome State Fault Refusal :=
  if h : validConfig cfg = true then run ⟨cfg, h⟩ else .refused .invalidConfiguration

end Sys2Proof.Machine
end

