-- ==== Sys2Proof/Machine/Step.lean ====
section
/-! DEFINITION. The step of the machine, on the configuration the firmware was built with, and the placing of
one descriptor where `FG` takes its next operation from. -/

namespace Sys2Proof.Machine

/-- One step of the machine: one agent steps (00 R6, 20 R58). -/
def step (s : State) : Host.Outcome State Fault Refusal := stepWith Config.board s

/-- `s` with the transaction whose low `nbits` bits are those of `w` (the others 0) placed as `FG`'s next
operation and `FG`'s turn next. `FG` is made idle and unfaulted, since it takes no operation otherwise
(log entry 6). -/
def State.withFetchWord (s : State) (nbits w : Nat) : State :=
  { s with
    frame := .idle
    faults := []
    program := .txn (BitVec.ofNat 64 (w % 2 ^ nbits)) :: s.program
    turns := .fg :: s.turns }

end Sys2Proof.Machine
end

