-- ==== Sys2Proof/Machine/Assembler.lean ====
section
/-! DEFINITION. The assembler syntax of 30 R77 and the pseudo-instructions of 30 R78. Each line stands for at
most one transaction. What the spec leaves open of the text (spacing, case) is log entry 13. -/

namespace Sys2Proof.Machine

/-- The pseudo-instructions (30 R78), named after the source's capability operations. -/
inductive Pseudo where
  | setPrescaler (d : Nat)
  | stopClock
  | setCompareTarget (v : Nat)
  | enableInterrupt
  | disableInterrupt
  | clearFlags
  | readCounter
  | readElapsed
  | readEnable
deriving DecidableEq, Repr

/-- The one transaction a pseudo-instruction expands to, where `set` is `PRESCALE_SET`; `none` is an assembly error
(30 R78). -/
def Pseudo.expand (set : List Nat) : Pseudo → Option Instr
  | .setPrescaler 0 => some (.wrCtrl 0#32)
  | .setPrescaler d => if supports set d then (clockCode d).map (fun code => .wrCtrl (zext32 code)) else none
  | .stopClock => some (.wrCtrl 0#32)
  | .setCompareTarget v => if v ≤ 0xFFFF then some (.wrCmp (BitVec.ofNat 32 v)) else none
  | .enableInterrupt => some (.wrIer 1#32)
  | .disableInterrupt => some (.wrIer 0#32)
  | .clearFlags => some (.wrIfr 1#32)
  | .readCounter => some .rdCnt
  | .readElapsed => some .rdMs
  | .readEnable => some .rdIer

/-- What a line of assembler stands for. -/
inductive AsmLine where
  /-- Nothing but space and a comment. -/
  | blank
  | txn (i : Instr)
  /-- An assembly error. -/
  | bad
deriving DecidableEq, Repr

/-- A word read so far, as the list of words it adds: none when it is empty. -/
def flushWord (cur : List Char) : List (List Char) := if cur = [] then [] else [cur]

/-- The words of a line, a comma being a word of its own; a comment starts with `;` (30 R77). -/
def lexLine : List Char → List Char → List (List Char)
  | [], cur => flushWord cur
  | c :: cs, cur =>
    if c = ';' then flushWord cur
    else if c = ' ' ∨ c = '\t' then flushWord cur ++ lexLine cs []
    else if c = ',' then flushWord cur ++ [','] :: lexLine cs []
    else lexLine cs (cur ++ [c])

/-- The value of a digit in a base up to 16. -/
def digitValue (base : Nat) (c : Char) : Option Nat :=
  let v :=
    if '0' ≤ c ∧ c ≤ '9' then c.toNat - '0'.toNat
    else if 'a' ≤ c ∧ c ≤ 'f' then c.toNat - 'a'.toNat + 10
    else if 'A' ≤ c ∧ c ≤ 'F' then c.toNat - 'A'.toNat + 10
    else 16
  if v < base then some v else none

/-- The rest of a numeral after the value read so far; `_` is only a digit separator (00 R10). -/
def numeralRest (base : Nat) : List Char → Nat → Option Nat
  | [], v => some v
  | c :: cs, v =>
    if c = '_' then numeralRest base cs v
    else
      match digitValue base c with
      | some d => numeralRest base cs (v * base + d)
      | none => none

/-- A numeral of a base, which begins with a digit. -/
def numeralIn (base : Nat) : List Char → Option Nat
  | [] => none
  | c :: cs =>
    match digitValue base c with
    | some d => numeralRest base cs d
    | none => none

/-- A decimal or `0x` hexadecimal numeral (30 R77). -/
def numeral : List Char → Option Nat
  | '0' :: 'x' :: cs => numeralIn 16 cs
  | cs => numeralIn 10 cs

/-- `<REG>` (30 R77). -/
def regOfName (w : List Char) : Option Reg :=
  if w = "CTRL".toList then some .ctrl
  else if w = "CNT".toList then some .cnt
  else if w = "CMP".toList then some .cmp
  else if w = "IER".toList then some .ier
  else if w = "IFR".toList then some .ifr
  else if w = "MS".toList then some .ms
  else none

/-- An expansion as a line. -/
def asmOf (i : Option Instr) : AsmLine :=
  match i with
  | some i => .txn i
  | none => .bad

/-- The pseudo-instructions without an operand (30 R78). -/
def pseudoOfName (w : List Char) : Option Pseudo :=
  if w = "stop_clock".toList then some .stopClock
  else if w = "enable_interrupt".toList then some .enableInterrupt
  else if w = "disable_interrupt".toList then some .disableInterrupt
  else if w = "clear_flags".toList then some .clearFlags
  else if w = "read_counter".toList then some .readCounter
  else if w = "read_elapsed".toList then some .readElapsed
  else if w = "read_enable".toList then some .readEnable
  else none

/-- `rd <REG>`, or a pseudo-instruction with one operand (30 R77, R78). -/
def asmOneOperand (set : List Nat) (w a : List Char) : AsmLine :=
  if w = "rd".toList then asmOf ((regOfName a).map Reg.readInstr)
  else if w = "set_prescaler".toList then
    asmOf ((numeral a).bind (fun d => (Pseudo.setPrescaler d).expand set))
  else if w = "set_compare_target".toList then
    asmOf ((numeral a).bind (fun v => (Pseudo.setCompareTarget v).expand set))
  else .bad

/-- `wr <REG>, <value>` with a value below 2^32 (30 R77). -/
def asmWrite (r v : List Char) : AsmLine :=
  match regOfName r, numeral v with
  | some r, some n => if n < 2 ^ 32 then .txn (r.writeInstr (BitVec.ofNat 32 n)) else .bad
  | _, _ => .bad

/-- Assemble one line, where `set` is `PRESCALE_SET` (30 R77, R78). -/
def assembleLine (set : List Nat) (line : String) : AsmLine :=
  match lexLine line.toList [] with
  | [] => .blank
  | [w] => asmOf ((pseudoOfName w).bind (Pseudo.expand set))
  | [w, a] => asmOneOperand set w a
  | [w, r, c, v] => if w = "wr".toList ∧ c = [','] then asmWrite r v else .bad
  | _ => .bad

/-- Assemble a program to its descriptors, line by line; `none` when a line is an assembly error. -/
def assemble (set : List Nat) : List String → Option (List Descriptor)
  | [] => some []
  | line :: rest =>
    match assembleLine set line, assemble set rest with
    | .blank, some ds => some ds
    | .txn i, some ds => some (encode i :: ds)
    | _, _ => none

end Sys2Proof.Machine
end

