-- ==== Sys2Proof/Safety.lean ====
section
/-! DEFINITION. What counts as a good run, in the terms the claims use: the register state, the observation
point and the end of a run (70 R273), the states the spec's own rules allow, the launch premise `CleanStart` (70
R264), the counts of ticks, matches and services of a run (44 R201, R205), the premises `ACC` (44 R206) and
`PromptService` (70 R272), and weak fairness (70 R271). -/

namespace Sys2Proof.Machine

open Host (Outcome)

/-- The six registers (10 R20). -/
structure Registers where
  cs : ClockCode
  cnt : Half
  cmp : Half
  cmie : Bool
  cmf : Bool
  ms : Word
deriving DecidableEq, Repr

/-- The register state of a state. -/
def State.registers (s : State) : Registers := ⟨s.cs, s.cnt, s.cmp, s.cmie, s.cmf, s.ms⟩

/-- `s` with the register state `r`. -/
def State.withRegisters (s : State) (r : Registers) : State :=
  { s with cs := r.cs, cnt := r.cnt, cmp := r.cmp, cmie := r.cmie, cmf := r.cmf, ms := r.ms }

/-- `n` turns of `FG` with no step of another agent between them. -/
def foregroundRun (cfg : ValidConfig) (n : Nat) (s : State) : Outcome State Fault Refusal :=
  runTurns cfg (List.replicate n .fg) s

/-- `FG` is about to start the procedure `p`, and `rest` is what it does afterwards. -/
def State.calls (s : State) (p : Proc) (rest : List Request) : Prop :=
  s.faults = [] ∧ s.frame = .idle ∧ s.program = .call p :: rest

/-- The premise of a clean start: the reset state, whatever its program and schedule are to be, and a valid
configuration (70 R264). -/
def CleanStart (cfg : ClockConfig) (s : State) : Prop :=
  validConfig cfg = true ∧ s = { State.reset with program := s.program, turns := s.turns, draws := s.draws }

/-- `CTRL.CS` holds a legal code and `PSC` is below its divisor (10 R24, R33). -/
def State.legalClock (s : State) : Bool :=
  match divisor s.cs with
  | some d => decide (s.psc < d)
  | none => false

/-- A running procedure has passed its check of `INIT` (42 R161 to R164, R168). -/
def State.legalFrame (s : State) : Bool := s.frame == .idle || s.initDone

/-- What the spec's rules keep true of every state: a legal clock select and prescaler phase, `INIT` set
while a procedure runs, and a fault record that is a set. -/
def State.legal (s : State) : Bool := s.legalClock && s.legalFrame && decide s.faults.Nodup

/-- The next operation of the program is no bus access outside the block's window (20 R50). -/
def State.programInWindow (cfg : ClockConfig) (s : State) : Bool :=
  match s.program with
  | .memRead addr :: _ => (windowOffset cfg addr).isSome
  | .memWrite addr _ :: _ => (windowOffset cfg addr).isSome
  | _ => true

/-- The descriptor of the bus transaction that the next turn of `FG` issues, if it issues one (00 R12). -/
def foregroundDescriptor (cfg : ValidConfig) (s : State) : Option Descriptor :=
  if s.faults ≠ [] then none
  else
    match s.frame with
    | .idle =>
      match s.program with
      | .txn T :: _ => some T
      | .memRead addr :: _ => (windowOffset cfg.clock addr).map readDescriptor
      | .memWrite addr data :: _ => (windowOffset cfg.clock addr).map (fun off => writeDescriptor off data)
      | _ => none
    | .initCompare => some (writeDescriptor 0x08#8 (BitVec.ofNat 32 (tpm cfg.clock - 1)))
    | .initFlags => some (writeDescriptor 0x10#8 1#32)
    | .initEnable => some (writeDescriptor 0x0C#8 1#32)
    | .initClock => some (writeDescriptor 0x00#8 (zext32 (initCode cfg)))
    | .enableFlags => some (writeDescriptor 0x10#8 1#32)
    | .enableInterrupt => some (writeDescriptor 0x0C#8 1#32)
    | .disableFlags => some (writeDescriptor 0x10#8 1#32)
    | .disableInterrupt => some (writeDescriptor 0x0C#8 0#32)
    | .isEnabledRead => some (readDescriptor 0x0C#8)
    | .millisRead => some (readDescriptor 0x14#8)
    | .microsMsThenCnt => some (readDescriptor 0x14#8)
    | .microsCntAfter _ => some (readDescriptor 0x04#8)
    | .microsCntThenMs => some (readDescriptor 0x04#8)
    | .microsMsAfter _ => some (readDescriptor 0x14#8)
    | .isEnabledReturn _ => none
    | .millisReturn _ => none
    | .microsDraw => none
    | .microsConvert _ _ => none
    | .microsReturn _ _ => none

/-- The descriptors that a run issues, in order (42 R161 to R164 "transactions issued"). -/
def issued (cfg : ValidConfig) : List Turn → State → List Descriptor
  | [], _ => []
  | t :: ts, s =>
    let now := if t = .fg then (foregroundDescriptor cfg s).toList else []
    match takeTurn cfg t s with
    | .next s' => now ++ issued cfg ts s'
    | _ => now

/-- The number of turns of `FG` that end the running procedure, whatever the other agents do (44 R212). -/
def Frame.turnsLeft : Frame → Nat
  | .idle => 0
  | .initCompare => 4
  | .initFlags => 3
  | .initEnable => 2
  | .initClock => 1
  | .enableFlags | .disableFlags => 2
  | .enableInterrupt | .disableInterrupt => 1
  | .isEnabledRead | .millisRead => 2
  | .isEnabledReturn _ | .millisReturn _ => 1
  | .microsDraw => 5
  | .microsMsThenCnt | .microsCntThenMs => 4
  | .microsCntAfter _ | .microsMsAfter _ => 3
  | .microsConvert _ _ => 2
  | .microsReturn _ _ => 1

/-- The running procedure has yet to issue a transaction. -/
def Frame.issues : Frame → Bool
  | .idle | .isEnabledReturn _ | .millisReturn _ | .microsConvert _ _ | .microsReturn _ _ => false
  | .initCompare | .initFlags | .initEnable | .initClock | .enableFlags | .enableInterrupt | .disableFlags
  | .disableInterrupt | .isEnabledRead | .millisRead | .microsDraw | .microsMsThenCnt | .microsCntAfter _
  | .microsCntThenMs | .microsMsAfter _ => true

/-- The operation issues a transaction, unless it faults before: all do but a conversion (40 R110). -/
def Request.issues : Request → Bool
  | .txn _ | .memRead _ | .memWrite _ _ | .call _ => true
  | .convert _ _ => false

/-- `FG` has a transaction of its program yet to issue. -/
def State.transactionsLeft (s : State) : Bool := s.frame.issues || s.program.any Request.issues

/-- The turn from `s` to `s'` is the run's observation point: in it `FG` completes the last transaction of its
program (70 R273). -/
def observationPoint (cfg : ValidConfig) (t : Turn) (s s' : State) : Bool :=
  t == .fg && (foregroundDescriptor cfg s).isSome && s'.faults == [] && !s'.transactionsLeft

/-- The steps that end the running procedure once its transactions are over: at most `n` local steps of `FG`, which
read no register. -/
def finishCall (cfg : ValidConfig) : Nat → State → State
  | 0, s => s
  | n + 1, s =>
    if s.frame = .idle ∨ s.frame.issues = true then s
    else
      match foregroundTurn cfg s with
      | .next s' => finishCall cfg n s'
      | _ => s

/-- The observation at the observation point: the registers, and the values the procedures returned, with the value
of the call that the last transaction belongs to (70 R273; log entry 20). -/
def State.observation (cfg : ValidConfig) (s : State) : Registers × List Returned :=
  (s.registers, (finishCall cfg s.frame.turnsLeft s).returned)

/-- How a run ends (70 R273). -/
inductive RunEnd where
  /-- At its observation point, with the observation. -/
  | observed (registers : Registers) (returned : List Returned)
  /-- At a fault of `FG`, with `FAULT`. -/
  | faulted (faults : List FaultRecord)
deriving DecidableEq, Repr

/-- The operation is a conversion that faults: which ones do depends on nothing but the configuration (40 R110). -/
def Request.isFaultingConversion (cfg : ClockConfig) : Request → Bool
  | .convert f x =>
    match Machine.convert cfg f x.toNat with
    | .ok _ => false
    | .error _ => true
  | .txn _ | .memRead _ | .memWrite _ _ | .call _ => false

/-- A conversion that faults is left in the program of `FG`. -/
def State.conversionFaultLeft (cfg : ClockConfig) (s : State) : Bool :=
  s.program.any (Request.isFaultingConversion cfg)

/-- The end of a run from `s` with the given turns, if it comes within them (70 R273). A run in which `FG` faults ends
at the fault, also where the fault is that of a conversion after the last transaction; any other run ends at its
observation point. -/
def runEnd (cfg : ValidConfig) : List Turn → State → Option RunEnd
  | [], _ => none
  | t :: ts, s =>
    match takeTurn cfg t s with
    | .next s' =>
      if observationPoint cfg t s s' = true ∧ s'.conversionFaultLeft cfg.clock = false then
        some (.observed (s'.observation cfg).1 (s'.observation cfg).2)
      else if s'.faults ≠ [] then some (.faulted s'.faults)
      else runEnd cfg ts s'
    | _ => none

/-- A good end: the run comes to its observation point and `FG` faults neither before nor after it. A run that is still
going, or in which `FG` faults, has none (60 R232, 70 R273). -/
def goodEnd (cfg : ValidConfig) (ts : List Turn) (s : State) : Bool :=
  match runEnd cfg ts s with
  | some (.observed _ _) => true
  | _ => false

/-- Over a run of turns, the sum of a weight of each turn, the state before it and the state after it. -/
def tally (cfg : ValidConfig) (w : Turn → State → State → Nat) : List Turn → State → Nat
  | [], _ => 0
  | t :: ts, s =>
    match takeTurn cfg t s with
    | .next s' => w t s s' + tally cfg w ts s'
    | _ => 0

/-- This input-clock edge ticks (43 R181). -/
def State.edgeTicks (s : State) : Bool := s.cs != 0#3 && divisor s.cs == some (s.psc + 1)

/-- This input-clock edge is a compare match (43 R183). -/
def State.edgeMatches (s : State) : Bool := s.edgeTicks && compareMatch s.cnt s.cmp

/-- The turn is a tick. -/
def tickWeight (t : Turn) (s _s' : State) : Nat := if t = .tmr ∧ s.edgeTicks = true then 1 else 0

/-- The turn is a compare match. -/
def matchWeight (t : Turn) (s _s' : State) : Nat := if t = .tmr ∧ s.edgeMatches = true then 1 else 0

/-- The turn is a service step that is taken (44 R200). -/
def serviceWeight (t : Turn) (s _s' : State) : Nat := if t = .isr ∧ s.serviceEnabled = true then 1 else 0

/-- The turn is a match that coalesces with an earlier unserviced one (43 R187). -/
def mergedWeight (t : Turn) (s _s' : State) : Nat :=
  if t = .tmr ∧ s.edgeMatches = true ∧ s.cmf = true then 1 else 0

/-- The turn is a write that clears a pending flag, whose match is then never counted (44 R205). -/
def lostWeight (t : Turn) (s s' : State) : Nat := if t = .fg ∧ s.cmf = true ∧ s'.cmf = false then 1 else 0

/-- The descriptor is a `wr IFR` (41 R141). -/
def isFlagWrite (T : Descriptor) : Bool :=
  match decode T with
  | .ok (.wrIfr _) => true
  | _ => false

/-- The turn issues a `wr IFR` (44 R206). -/
def flagWriteWeight (cfg : ValidConfig) (t : Turn) (s _s' : State) : Nat :=
  if t = .fg ∧ isFlagWrite <$> foregroundDescriptor cfg s = some true then 1 else 0

/-- `PromptService`: every match is followed by its service step before the next tick that matches (70
R272). `owed` says that the latest match has had no service yet. -/
def promptFrom (cfg : ValidConfig) (owed : Bool) : List Turn → State → Bool
  | [], _ => true
  | t :: ts, s =>
    match takeTurn cfg t s with
    | .next s' =>
      if t = .tmr ∧ s.edgeMatches = true then !owed && promptFrom cfg true ts s'
      else if t = .isr ∧ s.serviceEnabled = true then promptFrom cfg false ts s'
      else promptFrom cfg owed ts s'
    | _ => true

/-- The premise `PromptService` of a run from `s` (70 R272). -/
def PromptService (cfg : ValidConfig) (ts : List Turn) (s : State) : Prop :=
  promptFrom cfg s.cmf ts s = true

/-- The accounting hypothesis `ACC` (44 R206) of a run that starts when `init()` has returned: no `wr IFR`,
and every match serviced before the next. -/
def Acc (cfg : ValidConfig) (ts : List Turn) (s : State) : Prop :=
  tally cfg (flagWriteWeight cfg) ts s = 0 ∧ PromptService cfg ts s

/-- `T(s) = P(s) * 1000 + ticks_to_us(CNT(s))`, the true time when `p` matches have occurred (44 R207). -/
def trueTime (cfg : ClockConfig) (p : Nat) (s : State) : Nat := p * 1000 + scaleToUs cfg s.cnt.toNat

/-- An infinite run: at every step one agent steps and the machine goes on. -/
def InfiniteRun (cfg : ValidConfig) (state : Nat → State) (turn : Nat → Turn) : Prop :=
  ∀ n, takeTurn cfg (turn n) (state n) = .next (state (n + 1))

/-- Weak fairness (70 R271): while the clock is selected the timer steps again and again, and a service that
stays enabled is eventually taken. The foreground and the host are not forced to step. -/
def WeaklyFair (state : Nat → State) (turn : Nat → Turn) : Prop :=
  (∀ n, (∀ m, n ≤ m → (state m).cs ≠ 0#3) → ∀ k, n ≤ k → ∃ m, k ≤ m ∧ turn m = .tmr) ∧
  (∀ n, (∀ m, n ≤ m → (state m).serviceEnabled = true) → ∃ m, n ≤ m ∧ turn m = .isr)

end Sys2Proof.Machine
end

