-- ==== Sys2Proof/Certificates/Slice0/Obligations.lean ====
section
/-! DEFINITION. The statements for the provers, in the order of the spec's files. A docstring names the section
of spec/ a statement follows. "By decision D<n>" marks what is not the source's word but the spec's own choice
(92_eei_decisions.md), "by the spec's inference" what the spec marks as derived, and a log entry what the model
fixes: such a statement has basis 'derived'. -/

open Sys2Proof Sys2Proof.Machine

/-! ### Encoding (30) -/

/-- Decoding the descriptor of an instruction gives the instruction back, every operand at every value (30 §2, §3;
the encoding is by decision D2). -/
def Obligations.DecodeInvertsEncode : Prop := ∀ i : Instr, decode (encode i) = .ok i

/-- A descriptor that decodes to an instruction is the descriptor of that instruction: no instruction has two
encodings and no bit of a descriptor is dropped (30 §3, §4; by decisions D2, D4). -/
def Obligations.EncodeInvertsDecode : Prop :=
  ∀ (T : Descriptor) (i : Instr), decode T = .ok i → encode i = T

/-- A descriptor decodes to an instruction exactly when a row of the opcode map selects it and stands for that
instruction, and no descriptor selects two rows (30 §3; by the spec's inference). -/
def Obligations.DecodeFollowsTheOpcodeMap : Prop :=
  (∀ (T : Descriptor) (i : Instr),
    decode T = .ok i ↔ ∃ r ∈ opcodeRows, r.selects T = true ∧ i = r.instr (dataField T)) ∧
  opcodeRows.Pairwise (fun r q => ∀ T : Descriptor, ¬ (r.selects T = true ∧ q.selects T = true))

/-- Decode is total, the first failing check decides the fault, a descriptor that fails a check changes no
register, and otherwise exactly one row matches and its rule runs (30 §4; by decisions D2, D4, D30). -/
def Obligations.DecodeChecksInOrder : Prop :=
  ∀ (T : Descriptor) (s : State),
    if T.extractLsb' 40 23 ≠ 0#23 ∨ (T.getLsbD 63 = false ∧ T.extractLsb' 0 32 ≠ 0#32) then
      ∃ t, transact T s = .next t ∧ t = s.raise (.illegalTransaction T) ∧ t.registers = s.registers
    else if (T.extractLsb' 32 8).toNat % 4 ≠ 0 ∨ 0x14 < (T.extractLsb' 32 8).toNat then
      ∃ t, transact T s = .next t ∧ t = s.raise (.badOffset (T.extractLsb' 32 8)) ∧ t.registers = s.registers
    else
      ∃ r ∈ opcodeRows, r.selects T = true ∧ (∀ q ∈ opcodeRows, q.selects T = true → q = r) ∧
        transact T s = exec (r.instr (T.extractLsb' 0 32)) s

/-- The worked encodings, with the assembler lines they encode (30 §6; by the spec's inference). -/
def Obligations.WorkedEncodings : Prop :=
  (assembleLine prescaleSet "wr CMP, 249" = .txn (.wrCmp 249#32) ∧ encode (.wrCmp 249#32) = 0x80000008000000F9#64) ∧
  (assembleLine prescaleSet "set_prescaler 64" = .txn (.wrCtrl 3#32) ∧ encode (.wrCtrl 3#32) = 0x8000000000000003#64) ∧
  (assembleLine prescaleSet "rd MS" = .txn .rdMs ∧ encode .rdMs = 0x0000001400000000#64) ∧
  (assembleLine prescaleSet "clear_flags" = .txn (.wrIfr 1#32) ∧ encode (.wrIfr 1#32) = 0x8000001000000001#64)

/-- Words written out from the table of 95 §2.2 decode to the instructions they stand for, and three malformed
ones to the fault the table names (by decision D2). -/
def Obligations.WrittenOutWordsDecode : Prop :=
  decode 0x0000000400000000#64 = .ok .rdCnt ∧ decode 0x0000000C00000000#64 = .ok .rdIer ∧
  decode 0x800000080000FFFF#64 = .ok (.wrCmp 0xFFFF#32) ∧ decode 0x8000001400000000#64 = .ok (.wrMs 0#32) ∧
  decode 0x0000010000000000#64 = .error (.illegalTransaction 0x0000010000000000#64) ∧
  decode 0x0000000400000001#64 = .error (.illegalTransaction 0x0000000400000001#64) ∧
  decode 0x0000001800000000#64 = .error (.badOffset 0x18#8)

/-- Each pseudo-instruction expands to exactly one transaction, or is an assembly error where the table says so,
whatever `PRESCALE_SET` is (30 §6). The codes of `set_prescaler` are those of the clock select, which has one for
every divisor of the spec's own set: set and codes are by decision D5 (00 §4, 10 §2), general knowledge there (log
entry 10). -/
def Obligations.PseudoInstructionsExpand : Prop :=
  (∀ set : List Nat,
    (Pseudo.setPrescaler 0).expand set = some (.wrCtrl 0#32) ∧
    (∀ d : Nat, d ≠ 0 → d ∉ set → (Pseudo.setPrescaler d).expand set = none) ∧
    (∀ (d : Nat) (code : ClockCode), d ∈ set → divisor code = some d → code ≠ 0#3 →
      (Pseudo.setPrescaler d).expand set = some (.wrCtrl (code.setWidth 32))) ∧
    (∀ v : Nat,
      (Pseudo.setCompareTarget v).expand set = if v > 0xFFFF then none else some (.wrCmp (BitVec.ofNat 32 v))) ∧
    Pseudo.stopClock.expand set = some (.wrCtrl 0#32) ∧ Pseudo.enableInterrupt.expand set = some (.wrIer 1#32) ∧
    Pseudo.disableInterrupt.expand set = some (.wrIer 0#32) ∧ Pseudo.clearFlags.expand set = some (.wrIfr 1#32) ∧
    Pseudo.readCounter.expand set = some .rdCnt ∧ Pseudo.readElapsed.expand set = some .rdMs ∧
    Pseudo.readEnable.expand set = some .rdIer) ∧
  ∀ d ∈ prescaleSet, ∃ code, divisor code = some d ∧ code ≠ 0#3

/-- A descriptor, and a register value, is serialised least-significant byte first, and reads back as itself (20 §2;
by the spec's own choice, decisions D2, D29). -/
def Obligations.SerialisationRoundTrips : Prop :=
  ∀ T : Descriptor,
    descriptorOfBytes (descriptorBytes T) = some T ∧
    (∀ (k : Nat) (b : Byte), (descriptorBytes T)[k]? = some b → b.toNat = T.toNat / 2 ^ (8 * k) % 256) ∧
    ∀ v : Word, wordOfBytes (wordBytes v) = some v ∧
      (∀ (k : Nat) (b : Byte), (wordBytes v)[k]? = some b → b.toNat = v.toNat / 2 ^ (8 * k) % 256)

/-! ### The transactions (41) -/

/-- The six reads complete with the register's field zero-extended and change nothing else: no read clears a flag
or stops the counter (20 §2, 41 §2 to §7; by decisions D11, D26; the completion is the model's field, log entry
4). -/
def Obligations.ReadsReturnTheRegister : Prop :=
  ∀ s : State,
    exec .rdCtrl s = .next { s with completion := .rdata (s.cs.setWidth 32) } ∧
    exec .rdCnt s = .next { s with completion := .rdata (s.cnt.setWidth 32) } ∧
    exec .rdCmp s = .next { s with completion := .rdata (s.cmp.setWidth 32) } ∧
    exec .rdIer s = .next { s with completion := .rdata (if s.cmie then 1#32 else 0#32) } ∧
    exec .rdIfr s = .next { s with completion := .rdata (if s.cmf then 1#32 else 0#32) } ∧
    exec .rdMs s = .next { s with completion := .rdata s.ms }

/-- `WR_CTRL` for every `DATA`: the reserved bits are checked first, then the code; a new code is written with a
phase drawn below its divisor, and the current code changes nothing (41 §2; by decisions D5, D16, D33). -/
def Obligations.WriteCtrlSelectsTheClock : Prop :=
  ∀ (data : Word) (s : State),
    if data.extractLsb' 3 29 ≠ 0#29 then exec (.wrCtrl data) s = .next (s.raise (.reservedBits 0x00#8 data))
    else if 5 < (data.extractLsb' 0 3).toNat then
      exec (.wrCtrl data) s = .next (s.raise (.reservedPrescaleCode (data.extractLsb' 0 3)))
    else if data.extractLsb' 0 3 = s.cs then exec (.wrCtrl data) s = .next { s with completion := .written }
    else
      ∃ d p, (data.toNat, d) ∈ [(0, 1), (1, 1), (2, 8), (3, 64), (4, 256), (5, 1024)] ∧ p < d ∧
        exec (.wrCtrl data) s =
          .next { s with cs := data.extractLsb' 0 3, psc := p, draws := s.draws + 1, completion := .written }

/-- Bits[31:3] of `CTRL` read as 0, and a write with any of them set raises `ReservedBits` and leaves `CTRL`
unchanged (10 §2; by decision D4). -/
def Obligations.CtrlReservedBits : Prop :=
  ∀ (s : State) (data : Word),
    (∃ t v, exec .rdCtrl s = .next t ∧ t.completion = .rdata v ∧ v.extractLsb' 3 29 = 0#29) ∧
    (data.extractLsb' 3 29 ≠ 0#29 →
      ∃ t, exec (.wrCtrl data) s = .next t ∧ t.completion = .faulted (.reservedBits 0x00#8 data) ∧
        .reservedBits 0x00#8 data ∈ t.faults ∧ t.cs = s.cs ∧ t.psc = s.psc)

/-- `WR_CNT` ignores its operand and always raises `ReadOnlyWrite(0x04)`; `CNT` and the flag are unchanged for
every `DATA` (41 §3; by decision D9). -/
def Obligations.CounterWriteIsForbidden : Prop :=
  ∀ (data : Word) (s : State),
    decode (0x8000000400000000#64 ||| data.setWidth 64) = .ok (.wrCnt data) ∧
    ∃ t, exec (.wrCnt data) s = .next t ∧ t = s.raise (.readOnlyWrite 0x04#8) ∧
      .readOnlyWrite 0x04#8 ∈ t.faults ∧ t.cnt = s.cnt ∧ t.cmf = s.cmf

/-- `WR_MS` ignores its operand and always raises `ReadOnlyWrite(0x14)`; `MS` and the flag are unchanged for every
`DATA` (41 §7; by decision D10). -/
def Obligations.AccumulatorWriteIsForbidden : Prop :=
  ∀ (data : Word) (s : State),
    decode (0x8000001400000000#64 ||| data.setWidth 64) = .ok (.wrMs data) ∧
    ∃ t, exec (.wrMs data) s = .next t ∧ t = s.raise (.readOnlyWrite 0x14#8) ∧
      .readOnlyWrite 0x14#8 ∈ t.faults ∧ t.ms = s.ms ∧ t.cmf = s.cmf

/-- `WR_CMP` and `WR_IER` for every `DATA`: the target, or the enable bit, is written at once, whole and alone, or
a reserved bit faults; `IRQ` follows the enable bit at once (41 §4, §5; by decisions D3, D34, D36). -/
def Obligations.TargetAndEnableWrites : Prop :=
  ∀ (data : Word) (s : State),
    (if data.extractLsb' 16 16 ≠ 0#16 then exec (.wrCmp data) s = .next (s.raise (.reservedBits 0x08#8 data))
      else exec (.wrCmp data) s = .next { s with cmp := data.extractLsb' 0 16, completion := .written }) ∧
    (if data.extractLsb' 1 31 ≠ 0#31 then exec (.wrIer data) s = .next (s.raise (.reservedBits 0x0C#8 data))
      else
        ∃ t, exec (.wrIer data) s = .next t ∧ t.irq = (decide (data = 1#32) && s.cmf) ∧
          t = { s with cmie := decide (data = 1#32), completion := .written })

/-- R28: `IER.CMIE` is the interrupt enable. With it 1 the interrupt is requested whenever the flag is set, with
it 0 never; `is_enabled()` reports it, read from the register; and the reserved bits read as 0 and fault when
written, `IER` unchanged. -/
def Obligations.InterruptEnableBit : Prop :=
  ∀ (data : Word) (s : State),
    (s.cmie = true → s.irq = s.cmf) ∧ (s.cmie = false → s.irq = false) ∧
    (∀ (cfg : ValidConfig) (rest : List Request), s.calls .isEnabled rest → s.initDone = true →
      issued cfg (List.replicate 3 .fg) s = [encode .rdIer] ∧
      ∃ t, foregroundRun cfg 3 s = .next t ∧ t.returned = .isEnabled s.cmie :: s.returned) ∧
    (∃ t v, exec .rdIer s = .next t ∧ t.completion = .rdata v ∧ v.getLsbD 0 = s.cmie ∧ v.extractLsb' 1 31 = 0#31) ∧
    (data.extractLsb' 1 31 ≠ 0#31 →
      ∃ t, exec (.wrIer data) s = .next t ∧ t = s.raise (.reservedBits 0x0C#8 data) ∧
        .reservedBits 0x0C#8 data ∈ t.faults ∧ t.cmie = s.cmie)

/-- `WR_IFR` clears the flag by writing a 1 and is a no-op for a 0; a flag cleared before its service loses that
match, since `MS` is not incremented (41 §6; by decision D11). -/
def Obligations.WriteIfrClearsTheFlag : Prop :=
  ∀ (data : Word) (s : State),
    decode (0x8000001000000000#64 ||| data.setWidth 64) = .ok (.wrIfr data) ∧
    (if data.extractLsb' 1 31 ≠ 0#31 then exec (.wrIfr data) s = .next (s.raise (.reservedBits 0x10#8 data))
      else if data.getLsbD 0 = true then exec (.wrIfr data) s = .next { s with cmf := false, completion := .written }
      else exec (.wrIfr data) s = .next { s with completion := .written }) ∧
    (∀ t, exec (.wrIfr data) s = .next t → t.ms = s.ms)

/-- The frame of every transaction: each register belongs to the one write that names it, and nothing but the
foreground's completion and `FAULT` is touched besides (41 §1 to §7; by decisions D9, D10, D34; the completion is
the model's field, log entry 4). -/
def Obligations.TransactionsKeepTheFrame : Prop :=
  ∀ (i : Instr) (s t : State), exec i s = .next t →
    t.cnt = s.cnt ∧ t.ms = s.ms ∧ t.initDone = s.initDone ∧ t.gie = s.gie ∧ t.frame = s.frame ∧
    t.returned = s.returned ∧ t.program = s.program ∧ t.turns = s.turns ∧ t.savedGie = s.savedGie ∧
    ((∀ d, i ≠ .wrCtrl d) → t.cs = s.cs ∧ t.psc = s.psc ∧ t.draws = s.draws) ∧
    ((∀ d, i ≠ .wrCmp d) → t.cmp = s.cmp) ∧ ((∀ d, i ≠ .wrIer d) → t.cmie = s.cmie) ∧
    ((∀ d, i ≠ .wrIfr d) → t.cmf = s.cmf)

/-- A well-formed transaction other than the two forbidden writes raises no fault; an ill-formed one raises
`ReservedBits` or `ReservedPrescaleCode` and changes nothing else (30 §4, 41 §1; by decisions D4, D5). -/
def Obligations.OnlyIllFormedWritesFault : Prop :=
  ∀ (i : Instr) (s : State), (∀ d, i ≠ .wrCnt d) → (∀ d, i ≠ .wrMs d) →
    if i.WellFormed then
      ∃ t, exec i s = .next t ∧ t.faults = s.faults ∧ (t.completion = .written ∨ ∃ v, t.completion = .rdata v)
    else
      ∃ f, (f.code = 4 ∨ f.code = 5) ∧ exec i s = .next (s.raise f)

/-- Bus address `TIMER_BASE + OFF` selects the register at `OFF` for any offset of the window, a misaligned or
unmapped offset raises `BadOffset` (20 §1, 41 §8; by decisions D2, D30, D44), and an address outside the window is
refused (the model's choice, log entry 12). -/
def Obligations.BusAddressSelectsTheOffset : Prop :=
  ∀ (cfg : ClockConfig) (s : State) (data : Word),
    (∀ off : Offset, ∀ r : Reg, Reg.ofOffset off = some r →
      memRead cfg (cfg.timerBase + off.toNat) s = exec r.readInstr s ∧
      memWrite cfg (cfg.timerBase + off.toNat) data s = exec (r.writeInstr data) s) ∧
    (∀ off : Offset, off.toNat % 4 ≠ 0 ∨ 0x14 < off.toNat →
      memRead cfg (cfg.timerBase + off.toNat) s = .next (s.raise (.badOffset off)) ∧
      memWrite cfg (cfg.timerBase + off.toNat) data s = .next (s.raise (.badOffset off))) ∧
    (∀ addr : Nat, addr < cfg.timerBase ∨ cfg.timerBase + 256 ≤ addr →
      memRead cfg addr s = .refused (.outsideWindow addr) ∧
      memWrite cfg addr data s = .refused (.outsideWindow addr))

/-! ### The step -/

/-- When it is `FG`'s turn, `FG` is idle and unfaulted and its next operation is the descriptor of an instruction,
the step is that instruction's meaning, on the state with the turn and the operation taken (00 §3, 41 §1; the
lists of turns and operations are the model's, log entries 2 and 6). -/
def Obligations.StepRunsTheDecodedTransaction : Prop :=
  ∀ (s : State) (T : Descriptor) (i : Instr) (rest : List Request) (later : List Turn),
    s.turns = .fg :: later → s.faults = [] → s.frame = .idle → s.program = .txn T :: rest → decode T = .ok i →
    step s = exec i { s with turns := later, program := rest }

/-- Every step keeps a state legal: the clock select and the prescaler phase (10 §2, §4), `INIT` while a procedure
runs, and `FAULT` a set (42 §1, 60 §1; by decisions D5, D16, D23, D32; `FAULT` as a list without repeats is the
model's, log entry 18). -/
def Obligations.StepKeepsTheStateLegal : Prop :=
  ∀ s t : State, s.legal = true → step s = .next t → t.legal = true

/-- The state after reset is legal (10 §5; by decision D15). -/
def Obligations.ResetIsLegal : Prop := State.reset.legal = true

/-- An invalid configuration is refused, whatever the run was to be (40 §1; by decision D19). On a valid one no step
from a legal state faults, and with the program inside the window every step answers a next state, which is legal
again: the timer always has a step, and no operation of the foreground blocks (43 §1, 44 §3; by decision D33 and the
spec's inference; what stops the machine otherwise is the model's, log entries 11, 12, 16). -/
def Obligations.LegalMachineNeverStops : Prop :=
  (∀ cfg : ClockConfig, validConfig cfg = false → ∀ run, configure cfg run = .refused .invalidConfiguration) ∧
  ∀ (cfg : ValidConfig) (s : State), s.legal = true →
    (∀ run, configure cfg.clock run = run cfg) ∧ (∀ r, stepWith cfg s ≠ .fault r) ∧
    (s.programInWindow cfg.clock = true → ∃ t, stepWith cfg s = .next t ∧ t.legal = true)

/-- A reset puts every state element at its reset value (70 §1, 10 §5; by decisions D14, D15). -/
def Obligations.ResetPutsEveryElementAtItsValue : Prop :=
  ∀ s : State, ∃ t, t = systemReset s ∧
    t.registers = ⟨0#3, 0#16, 0#16, false, false, 0#32⟩ ∧ t.psc = 0 ∧ t.initDone = false ∧ t.frame = .idle ∧
    t.faults = [] ∧ t.gie = false ∧ (∀ r : Reg, t.readReg r = 0#32)

/-- After reset no register changes until `FG` issues a transaction, whatever the agents do besides, `FG` included (70
§1; by the spec's inference). -/
def Obligations.RegistersRestUntilForegroundActs : Prop :=
  ∀ (cfg : ValidConfig) (ts : List Turn) (s t : State), CleanStart cfg.clock s → issued cfg ts s = [] →
    runTurns cfg ts s = .next t →
    t.registers = State.reset.registers ∧ t.psc = 0 ∧
    ((∀ x ∈ ts, x ≠ .fg) → t.initDone = false ∧ t.frame = .idle ∧ t.faults = [])

/-! ### Unit conversion (40) -/

/-- The derived constants at 16 MHz for every supported divisor, and which configurations are valid (40 §1; by
decisions D17 to D20; the divisors and their codes are log entry 10). -/
def Obligations.DerivedConstantsAtSixteenMegahertz : Prop :=
  ∀ base : Nat,
    let at16 : Nat → ClockConfig := fun p => ⟨16000000, p, prescaleSet, base⟩
    ([1, 8, 64, 256, 1024].map fun p => (tier (at16 p), maxUs (at16 p), (csCode (at16 p)).map BitVec.toNat, validConfig (at16 p)))
      = [(.small, 4095, some 1, true), (.small, 32767, some 2, true), (.large, 262140, some 3, true),
         (.large, 1048560, some 4, false), (.large, 4194240, some 5, false)] ∧
    ticksPerUs (at16 1) = 16 ∧ ticksPerUs (at16 8) = 2 ∧
    ([64, 256, 1024].map fun p => usPerTick (at16 p)) = [4, 16, 64] ∧
    ([1, 8, 64].map fun p => tpm (at16 p)) = [16000, 2000, 250]

/-- On a valid configuration a millisecond is an exact number of ticks that the compare register can hold, and
those ticks are exactly 1000 microseconds of CPU cycles (40 §1, 43 §2; by decision D19 and the spec's inference).
-/
def Obligations.MillisecondIsAnExactPeriod : Prop :=
  ∀ cfg : ClockConfig, validConfig cfg = true →
    usToTicks cfg 1000 = .ok (tpm cfg) ∧ 1 ≤ tpm cfg ∧ tpm cfg ≤ 65535 ∧
    tpm cfg * cfg.prescale = 1000 * cpuUs cfg ∧
    ∃ code, csCode cfg = some code ∧ divisor code = some cfg.prescale ∧ code ≠ 0#3

/-- The round trip from ticks: exact in `LARGE`, short by the remainder in `SMALL` (40 §3; by the spec's
inference). -/
def Obligations.TicksRoundTrip : Prop :=
  ∀ (cfg : ClockConfig) (t : Nat), validConfig cfg = true → t ≤ 65535 →
    ∃ u, ticksToUs cfg t = .ok u ∧ u ≤ maxUs cfg ∧
      usToTicks cfg u = .ok (match tier cfg with | .large => t | .small => t - t % ticksPerUs cfg)

/-- The round trip from microseconds: exact in `SMALL`, short by the remainder in `LARGE` (40 §3; by the spec's
inference). -/
def Obligations.MicrosecondsRoundTrip : Prop :=
  ∀ (cfg : ClockConfig) (u : Nat), validConfig cfg = true → u ≤ maxUs cfg →
    ∃ t, usToTicks cfg u = .ok t ∧ t ≤ 65535 ∧
      ticksToUs cfg t = .ok (match tier cfg with | .small => u | .large => u - u % usPerTick cfg)

/-- Both conversions are non-decreasing on their domains (40 §3; by the spec's inference), and beyond its domain
each conversion faults with its own operand, the product of milliseconds not wrapped (40 §2; by decisions D21,
D22). -/
def Obligations.ConversionsOnTheirDomains : Prop :=
  ∀ (cfg : ClockConfig) (a b : Nat), validConfig cfg = true → a ≤ b →
    (if b ≤ maxUs cfg then ∃ x y, usToTicks cfg a = .ok x ∧ usToTicks cfg b = .ok y ∧ x ≤ y
      else convert cfg .usToTicks b = .error (.durationOutOfRange b)) ∧
    (if b ≤ 65535 then
        ∃ x y, ticksToUs cfg a = .ok x ∧ ticksToUs cfg b = .ok y ∧ x ≤ y ∧ convert cfg .ticksToMs b = .ok (y / 1000)
      else convert cfg .ticksToUs b = .error (.durationOutOfRange b) ∧
        convert cfg .ticksToMs b = .error (.durationOutOfRange b)) ∧
    (if b * 1000 ≤ maxUs cfg then convert cfg .msToTicks b = convert cfg .usToTicks (b * 1000)
      else convert cfg .msToTicks b = .error (.durationOutOfRange b))

/-- A counter value below one period is under a millisecond, with the exact value at the last tick (40 §3; by the
spec's inference). -/
def Obligations.SubMillisecondTermIsBelowOneMillisecond : Prop :=
  ∀ (cfg : ClockConfig), validConfig cfg = true →
    (∀ c, c ≤ tpm cfg - 1 → ∃ u, ticksToUs cfg c = .ok u ∧ u ≤ 999) ∧
    ticksToUs cfg (tpm cfg - 1) = .ok (match tier cfg with | .large => 1000 - usPerTick cfg | .small => 999)

/-- Where the divisor equals the CPU cycles per microsecond, the tier is `LARGE`, and the span and the conversions are
those of either tier, so the tier chosen there cannot be observed (40 §1, §2; by decision D17). -/
def Obligations.EqualTierIsUnobservable : Prop :=
  ∀ (cfg : ClockConfig), cfg.prescale = cpuUs cfg → 0 < cpuUs cfg →
    tier cfg = .large ∧ usPerTick cfg = 1 ∧ ticksPerUs cfg = 1 ∧
    maxUs cfg = 65535 * usPerTick cfg ∧ maxUs cfg = 65535 / ticksPerUs cfg ∧
    ∀ n, scaleToTicks cfg n = n / usPerTick cfg ∧ scaleToTicks cfg n = n * ticksPerUs cfg ∧
      scaleToUs cfg n = n * usPerTick cfg ∧ scaleToUs cfg n = n / ticksPerUs cfg ∧
      usToTicks cfg n =
        (if n > 65535 / ticksPerUs cfg then .error (.durationOutOfRange n) else .ok (n * ticksPerUs cfg)) ∧
      ticksToUs cfg n = (if n > 65535 then .error (.durationOutOfRange n) else .ok (n / ticksPerUs cfg))

/-- R110: on a valid configuration a conversion of any operand gives a number or the fault `DurationOutOfRange` of
its operand and no other; its divisions are floor divisions; and calling it reads and writes no register or flag:
the answer depends on the configuration and the operand alone. -/
def Obligations.ConversionsAreTotalAndPure : Prop :=
  ∀ (cfg : ValidConfig) (x : Word),
    let n := x.toNat
    let k := match tier cfg.clock with | .large => usPerTick cfg.clock | .small => ticksPerUs cfg.clock
    1 ≤ k ∧
    (∀ f, (∃ v, convert cfg.clock f n = .ok v) ∨ convert cfg.clock f n = .error (.durationOutOfRange n)) ∧
    (∀ v, convert cfg.clock .usToTicks n = .ok v →
      match tier cfg.clock with | .large => v * k ≤ n ∧ n < (v + 1) * k | .small => v = n * k) ∧
    (∀ v, convert cfg.clock .ticksToUs n = .ok v →
      match tier cfg.clock with | .large => v = n * k | .small => v * k ≤ n ∧ n < (v + 1) * k) ∧
    (∀ v, convert cfg.clock .msToTicks n = .ok v →
      match tier cfg.clock with | .large => v * k ≤ n * 1000 ∧ n * 1000 < (v + 1) * k | .small => v = n * 1000 * k) ∧
    (∀ v, convert cfg.clock .ticksToMs n = .ok v →
      match tier cfg.clock with
      | .large => v * 1000 ≤ n * k ∧ n * k < (v + 1) * 1000
      | .small => v * 1000 * k ≤ n ∧ n < (v + 1) * 1000 * k) ∧
    (∀ (f : Conversion) (s : State) (rest : List Request),
      s.faults = [] → s.frame = .idle → s.program = .convert f x :: rest →
      foregroundDescriptor cfg s = none ∧
      takeTurn cfg .fg s =
        match convert cfg.clock f n with
        | .ok v => .next { s with program := rest, returned := .converted f n v :: s.returned }
        | .error e => .next ({ s with program := rest }.raise e))

/-! ### Timer configuration (42) -/

/-- An uninterrupted `init()` on a valid configuration issues its four writes in order and leaves the clock of the
configuration selected, the compare target at `TPM - 1`, the flag clear and the interrupt enabled; it writes
neither `CNT` nor `MS` (42 §2; by decisions D7, D23, D24). -/
def Obligations.InitProgramsTheTimer : Prop :=
  ∀ (cfg : ValidConfig) (s : State) (rest : List Request) (code : ClockCode),
    csCode cfg.clock = some code → s.calls .init rest → s.initDone = false →
    issued cfg (List.replicate 5 .fg) s =
      [encode (.wrCmp (BitVec.ofNat 32 (tpm cfg.clock - 1))), encode (.wrIfr 1#32), encode (.wrIer 1#32),
        encode (.wrCtrl (code.setWidth 32))] ∧
    ∃ t, foregroundRun cfg 5 s = .next t ∧ t.cmp.toNat = tpm cfg.clock - 1 ∧ t.cmf = false ∧ t.cmie = true ∧
      t.cs = code ∧ (s.cs ≠ code → t.psc < cfg.clock.prescale) ∧ t.initDone = true ∧ t.cnt = s.cnt ∧
      t.ms = s.ms ∧ t.gie = s.gie ∧
      t.frame = .idle ∧ t.faults = [] ∧ t.program = rest

/-- An uninterrupted `enable()` clears the pending flag and turns the interrupt on, an uninterrupted `disable()`
clears it and turns the interrupt off; nothing else of the block changes, so a pending match is discarded
uncounted (42 §2; by decisions D11, D23). -/
def Obligations.EnableAndDisableClearTheFlag : Prop :=
  ∀ (cfg : ValidConfig) (s : State) (rest : List Request) (on : Bool),
    s.calls (if on then .enable else .disable) rest → s.initDone = true →
    issued cfg (List.replicate 3 .fg) s = [encode (.wrIfr 1#32), encode (.wrIer (if on then 1#32 else 0#32))] ∧
    foregroundRun cfg 3 s =
      .next { s with cmf := false, cmie := on, program := rest, completion := .written }

/-- `is_enabled()` reports the enable bit, whatever turns of the timer, the interrupt and the host come among its
steps: none of them writes `CMIE` (42 §2, §3; by decisions D23, D37 and the spec's inference). -/
def Obligations.IsEnabledReportsTheBit : Prop :=
  ∀ (cfg : ValidConfig) (s t : State) (rest : List Request) (ts : List Turn),
    s.calls .isEnabled rest → s.initDone = true → ts.count .fg = 3 →
    runTurns cfg ts s = .next t →
    t.returned = .isEnabled s.cmie :: s.returned ∧ t.cmie = s.cmie ∧ t.frame = .idle ∧ t.faults = [] ∧ t.program = rest

/-- A procedure called before `init()`, and a second `init()`, end with their fault before any transaction (42 §3;
by decision D23). -/
def Obligations.MisuseFaultsBeforeAnyTransaction : Prop :=
  ∀ (cfg : ValidConfig) (s : State) (p : Proc) (rest : List Request),
    s.calls p rest → s.initDone = decide (p = Proc.init) →
    foregroundDescriptor cfg s = none ∧
    takeTurn cfg .fg s =
      .next ({ s with program := rest }.raise (if p = Proc.init then .alreadyInitialized else .notInitialized))

/-- While the interrupt is disabled the accumulator stands still, whatever the agents do, also while the foreground
reads it; and while the foreground takes no turn the interrupt stays disabled and the counter goes on ticking exactly
as before (42 §3, 44 §3; by decision D35 and the spec's inference). -/
def Obligations.DisabledAccumulatorStandsStill : Prop :=
  ∀ (cfg : ValidConfig) (ts : List Turn) (s t : State), runTurns cfg ts s = .next t →
    ((∀ (k : Nat) (u : State), k < ts.length → runTurns cfg (ts.take k) s = .next u → u.cmie = false) →
      t.ms = s.ms) ∧
    (s.cmie = false → (∀ x ∈ ts, x ≠ .fg) →
      t.ms = s.ms ∧ t.cmie = false ∧ t.cnt = (ticks (tally cfg tickWeight ts s) s).cnt ∧
      t.cmf = (ticks (tally cfg tickWeight ts s) s).cmf)

/-! ### Prescaler, counter and compare match (43) -/

/-- With no clock selected the timer has no step, so nothing of the state changes; with a clock selected it always
has one, the input-clock edge: the phase advances, or at the divisor returns to 0 with a tick, and the clock stays
selected (43 §1; by decisions D33, D36). -/
def Obligations.TimerStepsExactlyWhileClocked : Prop :=
  ∀ (cfg : ValidConfig) (s : State),
    (s.cs = 0#3 → takeTurn cfg .tmr s = .next s) ∧
    (s.cs ≠ 0#3 → s.legalClock = true →
      ∃ d t, divisor s.cs = some d ∧ takeTurn cfg .tmr s = .next t ∧ t.cs = s.cs ∧ t.legalClock = true ∧
        t = if s.psc + 1 = d then tick { s with psc := 0 } else { s with psc := s.psc + 1 })

/-- An input-clock edge advances the phase, and at the divisor returns it to 0 and ticks, in one step. With divisor 1
every edge ticks, and so the first tick after a write that changes the divisor comes after 1 to `D` edges (43 §1).
That such a write leaves the phase below the divisor is by decision D16 (10 §4); the divisors are decision D5 (10
§2), general knowledge in the spec (log entry 10). -/
def Obligations.InputClockEdge : Prop :=
  ∀ (cfg : ValidConfig) (s : State) (d : Nat), s.cs ≠ 0#3 → divisor s.cs = some d →
    d ∈ [1, 8, 64, 256, 1024] ∧
    takeTurn cfg .tmr s =
      .next (if s.psc + 1 = d then tick { s with psc := 0 } else { s with psc := s.psc + 1 }) ∧
    (∀ data u, exec (.wrCtrl data) u = .next s → s.cs ≠ u.cs → s.psc < d) ∧
    (s.psc < d →
      (d = 1 → takeTurn cfg .tmr s = .next (tick s)) ∧ 1 ≤ d - s.psc ∧ d - s.psc ≤ d ∧
      (∀ j, j < d - s.psc → runTurns cfg (List.replicate j .tmr) s = .next { s with psc := s.psc + j }) ∧
      runTurns cfg (List.replicate (d - s.psc) .tmr) s = .next (tick { s with psc := 0 }))

/-- A tick clears the counter and sets the flag when the counter equals the target, and else increments the
counter mod 2^16; nothing else changes (43 §1; by decisions D6, D8, D13). -/
def Obligations.TickCountsOrClears : Prop :=
  ∀ s : State,
    tick s =
      if s.cnt = s.cmp then { s with cnt := 0#16, cmf := true }
      else { s with cnt := BitVec.ofNat 16 ((s.cnt.toNat + 1) % 2 ^ 16) }

/-- From a counter value `c` and target `t` the next match is the `(t - c + 1)`-th tick, or the `(65537 - c +
t)`-th when `t < c`: until then no flag is set, also through the wrap (43 §2; by decision D8 and the spec's
inference). -/
def Obligations.NextMatchTick : Prop :=
  ∀ s : State,
    let c := s.cnt.toNat
    let t := s.cmp.toNat
    let n := if t < c then 65537 - c + t else t - c + 1
    (∀ j, j + 1 < n → (ticks j s).cnt ≠ s.cmp) ∧ (∀ j, j < n → (ticks j s).cmf = s.cmf ∧
      (ticks j s).cnt = BitVec.ofNat 16 (c + j)) ∧
    ticks n s = { s with cnt := 0#16, cmf := true }

/-- A run of the counter takes the values 0 to `CMP` and its period is `CMP + 1` ticks, any number of periods on
(43 §2; by decisions D6, D7 and the spec's inference). -/
def Obligations.CounterIsPeriodic : Prop :=
  ∀ (s : State) (n : Nat), s.cnt = 0#16 →
    (ticks n s).cnt.toNat = n % (s.cmp.toNat + 1) ∧
    (ticks n s).cmf = (s.cmf || decide (s.cmp.toNat + 1 ≤ n))

/-- A counter at or below its target stays so at every step that leaves the target alone (43 §2; by the spec's
inference). -/
def Obligations.CounterStaysBelowTheTarget : Prop :=
  ∀ (cfg : ValidConfig) (x : Turn) (s t : State), takeTurn cfg x s = .next t → s.cnt.toNat ≤ s.cmp.toNat →
    t.cmp = s.cmp → t.cnt.toNat ≤ t.cmp.toNat

/-- The edge model is the tick model up to stuttering: any number of edges is exactly the ticks whose phase they
complete, with the phase left over (43 §3; by the spec's inference). -/
def Obligations.EdgesRefineTicks : Prop :=
  ∀ (s : State) (d n : Nat), s.cs ≠ 0#3 → divisor s.cs = some d → s.psc < d →
    clockEdges n s = { ticks ((s.psc + n) / d) s with psc := (s.psc + n) % d }

/-! ### Tick accounting (44) -/

/-- The service step is taken exactly when `GIE`, `CMIE` and `CMF` are 1, clears the flag and increments the
accumulator mod 2^32, and changes nothing else (44 §1; by decisions D12, D41); otherwise the turn leaves the state
alone (the model's choice, log entry 3). -/
def Obligations.ServiceStep : Prop :=
  ∀ (cfg : ValidConfig) (s : State),
    takeTurn cfg .isr s =
      if s.gie = true ∧ s.cmie = true ∧ s.cmf = true then
        .next { s with cmf := false, ms := BitVec.ofNat 32 ((s.ms.toNat + 1) % 2 ^ 32) }
      else .next s

/-- Over any run, from any state, the accumulator grows by exactly the number of service steps taken, mod 2^32: no
other step writes it (44 §1; by the spec's inference). -/
def Obligations.AccumulatorCountsServices : Prop :=
  ∀ (cfg : ValidConfig) (ts : List Turn) (s t : State), runTurns cfg ts s = .next t →
    t.ms = s.ms + BitVec.ofNat 32 (tally cfg serviceWeight ts s)

/-- Over any run, every compare match is serviced, still pending, merged into an earlier one, or lost to a write
that cleared its flag, and no match is counted twice (44 §3; by decision D13 and the spec's inference). -/
def Obligations.EveryMatchIsAccountedFor : Prop :=
  ∀ (cfg : ValidConfig) (ts : List Turn) (s t : State), runTurns cfg ts s = .next t →
    tally cfg serviceWeight ts s + t.cmf.toNat + tally cfg mergedWeight ts s + tally cfg lostWeight ts s =
      tally cfg matchWeight ts s + s.cmf.toNat

/-- Under `ACC` no match is merged or lost: services and the pending flag make up the matches (44 §3; by the
spec's inference). -/
def Obligations.AccHypothesisLosesNoMatch : Prop :=
  ∀ (cfg : ValidConfig) (ts : List Turn) (s t : State), Acc cfg ts s → runTurns cfg ts s = .next t →
    tally cfg serviceWeight ts s + t.cmf.toNat = tally cfg matchWeight ts s + s.cmf.toNat

/-- An uninterrupted `milliseconds_now()` issues one read and returns the accumulator (44 §2; by decision D23). Where
the program ends with it, that value is in the observation at the run's end (70 §4; by decision D28 and log entry
20). With turns of the other agents between its steps it returns the accumulator at its read. -/
def Obligations.MillisecondsNowReadsTheAccumulator : Prop :=
  ∀ (cfg : ValidConfig) (s : State) (rest : List Request),
    s.calls .millisecondsNow rest → s.initDone = true →
    issued cfg (List.replicate 3 .fg) s = [encode .rdMs] ∧
    foregroundRun cfg 3 s =
      .next { s with program := rest, completion := .rdata s.ms, returned := .millisecondsNow s.ms :: s.returned } ∧
    (rest = [] →
      runEnd cfg (List.replicate 3 .fg) s = some (.observed s.registers (.millisecondsNow s.ms :: s.returned))) ∧
    (∀ (t1 t2 : List Turn) (s1 t : State), (∀ x ∈ t1 ++ t2, x ≠ .fg) →
      runTurns cfg (.fg :: t1) s = .next s1 → runTurns cfg (.fg :: t2 ++ [.fg]) s1 = .next t →
      foregroundDescriptor cfg s1 = some (encode .rdMs) ∧ t.returned = .millisecondsNow s1.ms :: s.returned ∧
      t.frame = .idle ∧ t.faults = [] ∧ t.program = rest)

/-- An uninterrupted `microseconds_now()` reads one state, in whichever order is drawn, and returns `(MS * 1000 +
ticks_to_us(CNT)) mod 2^32`; with `CNT` below one period the second term is under a millisecond. With turns of the
other agents between its steps it returns the same of `MS` at its `MS` read and `CNT` at its `CNT` read, in both
orders (44 §2, §3; by decisions D23, D25, D27). -/
def Obligations.MicrosecondsNowComposesItsReads : Prop :=
  ∀ (cfg : ValidConfig) (s : State) (rest : List Request),
    s.calls .microsecondsNow rest → s.initDone = true →
    (issued cfg (List.replicate 6 .fg) s).Perm [encode .rdMs, encode .rdCnt] ∧
    (∃ t sub, foregroundRun cfg 6 s = .next t ∧ ticksToUs cfg.clock s.cnt.toNat = .ok sub ∧
      t.returned = .microsecondsNow (BitVec.ofNat 32 ((s.ms.toNat * 1000 + sub) % 2 ^ 32)) :: s.returned ∧
      t.registers = s.registers ∧ t.frame = .idle ∧ t.faults = [] ∧ t.program = rest ∧
      (s.cnt.toNat ≤ tpm cfg.clock - 1 → sub ≤ 999)) ∧
    ∀ (t1 t2 t3 t4 t5 : List Turn) (s1 s2 t : State), (∀ x ∈ t1 ++ t2 ++ t3 ++ t4 ++ t5, x ≠ .fg) →
      runTurns cfg (.fg :: t1 ++ .fg :: t2) s = .next s1 → runTurns cfg (.fg :: t3) s1 = .next s2 →
      runTurns cfg (.fg :: t4 ++ .fg :: t5 ++ [.fg]) s2 = .next t →
      t.frame = .idle ∧ t.faults = [] ∧ t.program = rest ∧
      ∃ (sm sc : State) (sub : Nat),
        (foregroundDescriptor cfg s1 = some (encode .rdMs) ∧ foregroundDescriptor cfg s2 = some (encode .rdCnt) ∧
            sm = s1 ∧ sc = s2 ∨
          foregroundDescriptor cfg s1 = some (encode .rdCnt) ∧ foregroundDescriptor cfg s2 = some (encode .rdMs) ∧
            sm = s2 ∧ sc = s1) ∧
        ticksToUs cfg.clock sc.cnt.toNat = .ok sub ∧
        t.returned = .microsecondsNow (BitVec.ofNat 32 ((sm.ms.toNat * 1000 + sub) % 2 ^ 32)) :: s.returned

/-- The microsecond reading depends on the unbounded service count only mod 2^32, so it wraps cleanly, also across
the wrap of the accumulator (44 §3; by the spec's inference). -/
def Obligations.MicrosecondReadingWrapsCleanly : Prop :=
  ∀ served sub : Nat, composeMicros (BitVec.ofNat 32 served) sub = BitVec.ofNat 32 (served * 1000 + sub)

/-- Torn reads: with fewer than one period's ticks between the two reads and no flag pending at the `MS` read, the
reading is within one millisecond of the true time at the `CNT` read, in both orders. `p` is the number of matches
so far, all of them counted (44 §3; by the spec's inference). -/
def Obligations.TornReadIsWithinOneMillisecond : Prop :=
  ∀ (cfg : ValidConfig) (ts : List Turn) (s t : State) (p : Nat),
    s.legal = true → s.cmp.toNat = tpm cfg.clock - 1 → s.cnt.toNat ≤ s.cmp.toNat →
    (∀ x ∈ ts, x ≠ .fg) → runTurns cfg ts s = .next t → tally cfg tickWeight ts s < tpm cfg.clock →
    s.ms.toNat + s.cmf.toNat = p → p + 1 < 2 ^ 32 → PromptService cfg ts s →
    (s.cmf = false →
      let r : Int := (s.ms.toNat * 1000 + scaleToUs cfg.clock t.cnt.toNat : Nat)
      |r - (trueTime cfg.clock (p + tally cfg matchWeight ts s) t : Nat)| ≤ 1000) ∧
    (t.cmf = false →
      let r : Int := (t.ms.toNat * 1000 + scaleToUs cfg.clock s.cnt.toNat : Nat)
      |r - (trueTime cfg.clock p s : Nat)| ≤ 1000)

/-- Each turn of an unfaulted foreground brings the running procedure nearer its end, and no other agent touches
it: every call ends after a bounded number of `FG` steps (44 §3; by the spec's inference). -/
def Obligations.ProceduresAreBounded : Prop :=
  ∀ (cfg : ValidConfig) (x : Turn) (s t : State), takeTurn cfg x s = .next t →
    if x = .fg then
      s.faults = [] → s.frame ≠ .idle → t.faults = [] → t.frame.turnsLeft < s.frame.turnsLeft ∧ s.frame.turnsLeft ≤ 5
    else t.frame = s.frame ∧ t.program = s.program ∧ t.returned = s.returned

/-- R22: the registers are read and written by exactly the bus transactions, each register by its own, and besides
only the tick writes `CNT`, the match `IFR.CMF`, and the service step `MS` with the flag it takes. `FG` and the
service reach them in no other way: a turn of `FG` without a transaction does the same whatever the registers hold,
and one with a transaction knows of them only what the transaction completed with. -/
def Obligations.RegistersAreWrittenOnlyByTheirSteps : Prop :=
  (∀ (r : Reg) (data : Word) (s : State),
    (∃ u, transact (readDescriptor r.offset) s = .next u ∧ u.completion = .rdata (s.readReg r) ∧
      u.registers = s.registers) ∧
    transact (writeDescriptor r.offset data) s = exec (r.writeInstr data) s) ∧
  (∀ (i : Instr) (s t : State), exec i s = .next t →
    (t.cs ≠ s.cs → ∃ d, i = .wrCtrl d) ∧ t.cnt = s.cnt ∧ (t.cmp ≠ s.cmp → ∃ d, i = .wrCmp d) ∧
    (t.cmie ≠ s.cmie → ∃ d, i = .wrIer d) ∧ (t.cmf ≠ s.cmf → ∃ d, i = .wrIfr d) ∧ t.ms = s.ms) ∧
  (∀ (cfg : ValidConfig) (x : Turn) (s t : State), takeTurn cfg x s = .next t →
    match x with
    | .fg =>
      match foregroundDescriptor cfg s with
      | none => t.registers = s.registers ∧ t.psc = s.psc
      | some T => ∃ u, transact T s = .next u ∧ t.registers = u.registers ∧ t.psc = u.psc
    | .tmr =>
      t.cs = s.cs ∧ t.cmp = s.cmp ∧ t.cmie = s.cmie ∧ t.ms = s.ms ∧
      (t.cnt ≠ s.cnt → s.edgeTicks = true) ∧ (t.cmf ≠ s.cmf → s.edgeMatches = true)
    | .isr =>
      t.psc = s.psc ∧ (t.registers = s.registers ∨
        s.serviceEnabled = true ∧ t.registers = { s.registers with cmf := t.cmf, ms := t.ms })
    | .host _ => t.registers = s.registers ∧ t.psc = s.psc) ∧
  (∀ (cfg : ValidConfig) (s t : State) (r : Registers), takeTurn cfg .fg s = .next t →
    match foregroundDescriptor cfg s with
    | none => takeTurn cfg .fg (s.withRegisters r) = .next (t.withRegisters r)
    | some _ =>
      ∃ u, takeTurn cfg .fg (s.withRegisters r) = .next u ∧
        (u.completion = t.completion →
          u.frame = t.frame ∧ u.returned = t.returned ∧ u.faults = t.faults ∧ u.program = t.program ∧
            u.initDone = t.initDone))

/-! ### Faults, the interrupt and the host (60) -/

/-- Taking a fault adds it to `FAULT`, removes nothing and changes nothing but the foreground's completion (60 §1;
by decision D32; the completion is the model's field, log entry 4). -/
def Obligations.FaultIsRecordedAndNothingElse : Prop :=
  ∀ (s : State) (f : FaultRecord),
    f ∈ (s.raise f).faults ∧ (∀ g, g ∈ (s.raise f).faults ↔ g = f ∨ g ∈ s.faults) ∧
    (s.faults.Nodup → (s.raise f).faults.Nodup) ∧
    { s.raise f with faults := s.faults, completion := s.completion } = s

/-- A fault of `FG` is precise: the state is the one before the operation, but for `FAULT` and the model's own
completion and program; and it ends the run, which is no good end. A run with a good end has no fault, and has none
however it goes on (60 §1, 70 §4; by decision D32; log entries 4, 5 and 20). -/
def Obligations.ForegroundFaultIsPrecise : Prop :=
  (∀ (cfg : ValidConfig) (s t : State), takeTurn cfg .fg s = .next t → t.faults ≠ s.faults →
    (∃ f, t = { s with program := t.program }.raise f) ∧
    ∀ ts, runEnd cfg (.fg :: ts) s = some (.faulted t.faults) ∧ goodEnd cfg (.fg :: ts) s = false) ∧
  ∀ (cfg : ValidConfig) (ts later : List Turn) (s t : State), goodEnd cfg ts s = true →
    runTurns cfg (ts ++ later) s = .next t → t.faults = []

/-- After its first fault `FG` takes no step, and the other agents step as if there were none; no step removes a
fault (60 §1; by decision D32). -/
def Obligations.FaultStopsOnlyTheForeground : Prop :=
  ∀ (cfg : ValidConfig) (x : Turn) (s t : State), s.faults ≠ [] → takeTurn cfg x s = .next t →
    t.faults = s.faults ∧
    if x = .fg then t = s else takeTurn cfg x { s with faults := [] } = .next { t with faults := [] }

/-- `GIE` is the host's: `HOST` sets it to 0 or 1 in a step of its own, which changes nothing else, and no step of
another agent changes it. A critical section: between the host's save and its restore no service step happens,
whatever the timer, the foreground and the pending interrupt do, and the restore gives `GIE` its saved value back (20
§5, 60 §2; by decision D14; the saved value is the model's field, log entry 8). -/
def Obligations.HostOwnsTheInterruptEnable : Prop :=
  (∀ (cfg : ValidConfig) (s : State) (b : Bool), takeTurn cfg (.host (.setGie b)) s = .next { s with gie := b }) ∧
  (∀ (cfg : ValidConfig) (x : Turn) (s t : State), (∀ a, x ≠ .host a) → takeTurn cfg x s = .next t →
    t.gie = s.gie ∧ t.savedGie = s.savedGie) ∧
  ∀ (cfg : ValidConfig) (ts : List Turn) (s t : State), (∀ x ∈ ts, ∀ a, x ≠ .host a) →
    runTurns cfg (.host .suspend :: (ts ++ [.host .restore])) s = .next t →
    t.gie = s.gie ∧ t.savedGie = s.savedGie ∧ t.ms = s.ms

/-- Liveness: in a weakly fair infinite run whose clock stays selected, whose target stays put, with the interrupt
enabled throughout and no flag cleared but by a service, service steps never cease (70 §4; by decision D40). -/
def Obligations.FairRunServicesForever : Prop :=
  ∀ (cfg : ValidConfig) (state : Nat → State) (turn : Nat → Turn),
    InfiniteRun cfg state turn → WeaklyFair state turn → (state 0).legalClock = true → (state 0).cs ≠ 0#3 →
    (∀ n, (state n).cs = (state 0).cs ∧ (state n).cmp = (state 0).cmp ∧ (state n).cmie = true ∧
      (state n).gie = true ∧ lostWeight (turn n) (state n) (state (n + 1)) = 0) →
    ∀ n, ∃ m, n ≤ m ∧ turn m = .isr ∧ (state m).serviceEnabled = true
end

