-- ==== Sys2Proof/Laws/Decode.lean ====
section
/-! SUPPORT. The fields of a descriptor that the assembler builds (30 R71, R77), and what decode answers for
it. -/

namespace Sys2Proof

open Sys2Proof.Machine

/-- A bit of a read's descriptor. -/
theorem getLsbD_readDescriptor (off : Offset) (i : Nat) :
    (readDescriptor off).getLsbD i = (decide (32 ≤ i) && off.getLsbD (i - 32)) := by
  simp only [readDescriptor, BitVec.getLsbD_shiftLeft, BitVec.getLsbD_setWidth]
  by_cases h : i < 64
  · have h' : i - 32 < 64 := by omega
    by_cases h'' : i < 32 <;> simp [h, h', h'']; omega
  · have h' : off.getLsbD (i - 32) = false := BitVec.getLsbD_of_ge _ _ (by omega)
    simp [h, h']

/-- A bit of a write's descriptor: `DIR`, `OFF`, `DATA` at their places (30 R71). -/
theorem getLsbD_writeDescriptor (off : Offset) (d : Word) (i : Nat) :
    (writeDescriptor off d).getLsbD i =
      (decide (i = 63) || (decide (32 ≤ i) && off.getLsbD (i - 32)) || d.getLsbD i) := by
  have h63 : (0x8000000000000000#64).getLsbD i = decide (i = 63) := by
    rw [show (0x8000000000000000#64) = BitVec.twoPow 64 63 from rfl, BitVec.getLsbD_twoPow]
    simp [eq_comm]
  have hr : (off.setWidth 64 <<< 32).getLsbD i = (decide (32 ≤ i) && off.getLsbD (i - 32)) :=
    getLsbD_readDescriptor off i
  have hd : (d.setWidth 64).getLsbD i = d.getLsbD i := by
    rw [BitVec.getLsbD_setWidth]
    by_cases h : i < 64
    · simp [h]
    · simp [h, BitVec.getLsbD_of_ge d i (by omega)]
  simp only [writeDescriptor, BitVec.getLsbD_or, h63, hr, hd]

theorem dirField_readDescriptor (off : Offset) : dirField (readDescriptor off) = false := by
  rw [dirField, getLsbD_readDescriptor, BitVec.getLsbD_of_ge off _ (by omega)]; rfl

theorem dirField_writeDescriptor (off : Offset) (d : Word) : dirField (writeDescriptor off d) = true := by
  rw [dirField, getLsbD_writeDescriptor]; rfl

theorem rsvField_readDescriptor (off : Offset) : rsvField (readDescriptor off) = 0#23 := by
  refine BitVec.eq_of_getLsbD_eq fun i hi => ?_
  rw [rsvField, BitVec.getLsbD_extractLsb', getLsbD_readDescriptor, BitVec.getLsbD_of_ge off _ (by omega)]
  simp

theorem rsvField_writeDescriptor (off : Offset) (d : Word) : rsvField (writeDescriptor off d) = 0#23 := by
  refine BitVec.eq_of_getLsbD_eq fun i hi => ?_
  rw [rsvField, BitVec.getLsbD_extractLsb', getLsbD_writeDescriptor, BitVec.getLsbD_of_ge off _ (by omega),
    BitVec.getLsbD_of_ge d _ (by omega), decide_eq_false (p := 40 + i = 63) (by omega)]
  simp

theorem offField_readDescriptor (off : Offset) : offField (readDescriptor off) = off := by
  refine BitVec.eq_of_getLsbD_eq fun i hi => ?_
  rw [offField, BitVec.getLsbD_extractLsb', getLsbD_readDescriptor]
  simp [hi]

theorem offField_writeDescriptor (off : Offset) (d : Word) : offField (writeDescriptor off d) = off := by
  refine BitVec.eq_of_getLsbD_eq fun i hi => ?_
  rw [offField, BitVec.getLsbD_extractLsb', getLsbD_writeDescriptor, BitVec.getLsbD_of_ge d _ (by omega),
    decide_eq_false (p := 32 + i = 63) (by omega)]
  simp [hi]

theorem dataField_readDescriptor (off : Offset) : dataField (readDescriptor off) = 0#32 := by
  refine BitVec.eq_of_getLsbD_eq fun i hi => ?_
  rw [dataField, BitVec.getLsbD_extractLsb', getLsbD_readDescriptor, decide_eq_false (p := 32 ≤ 0 + i) (by omega)]
  simp

theorem dataField_writeDescriptor (off : Offset) (d : Word) : dataField (writeDescriptor off d) = d := by
  refine BitVec.eq_of_getLsbD_eq fun i hi => ?_
  rw [dataField, BitVec.getLsbD_extractLsb', getLsbD_writeDescriptor,
    decide_eq_false (p := 0 + i = 63) (by omega), decide_eq_false (p := 32 ≤ 0 + i) (by omega)]
  simp [hi]

/-- What decode answers for a read's descriptor (30 R74 steps 3 and 4). -/
theorem decode_readDescriptor (off : Offset) :
    decode (readDescriptor off) =
      match Reg.ofOffset off with
      | none => .error (.badOffset off)
      | some r => .ok r.readInstr := by
  cases h : Reg.ofOffset off <;>
    simp [decode, dirField_readDescriptor, rsvField_readDescriptor, offField_readDescriptor,
      dataField_readDescriptor, h]

/-- What decode answers for a write's descriptor (30 R74 steps 3 and 4). -/
theorem decode_writeDescriptor (off : Offset) (d : Word) :
    decode (writeDescriptor off d) =
      match Reg.ofOffset off with
      | none => .error (.badOffset off)
      | some r => .ok (r.writeInstr d) := by
  cases h : Reg.ofOffset off <;>
    simp [decode, dirField_writeDescriptor, rsvField_writeDescriptor, offField_writeDescriptor,
      dataField_writeDescriptor, h]

/-- A register's offset names it (10 R23). -/
theorem ofOffset_offset (r : Reg) : Reg.ofOffset r.offset = some r := by cases r <;> rfl

/-- An offset names no register exactly when it is misaligned or past 0x14 (30 R74 step 3). -/
theorem ofOffset_eq_none_iff :
    ∀ off : Offset, Reg.ofOffset off = none ↔ off.toNat % 4 ≠ 0 ∨ 0x14 < off.toNat := by decide

/-- Only a register's own offset names it. -/
theorem offset_of_ofOffset :
    ∀ (off : Offset) (r : Reg), Reg.ofOffset off = some r → r.offset = off := by
  intro off r h
  revert h
  revert off
  cases r <;> decide

end Sys2Proof
end

