-- ==== Sys2Proof/Laws/State.lean ====
section
/-! SUPPORT. One lemma per field per update of the state, so that no proof unfolds a record update. -/

namespace Sys2Proof.Machine

@[simp] theorem complete_cs (s : State) (c : Completion) : (s.complete c).cs = s.cs := rfl
@[simp] theorem complete_cnt (s : State) (c : Completion) : (s.complete c).cnt = s.cnt := rfl
@[simp] theorem complete_cmp (s : State) (c : Completion) : (s.complete c).cmp = s.cmp := rfl
@[simp] theorem complete_cmie (s : State) (c : Completion) : (s.complete c).cmie = s.cmie := rfl
@[simp] theorem complete_cmf (s : State) (c : Completion) : (s.complete c).cmf = s.cmf := rfl
@[simp] theorem complete_ms (s : State) (c : Completion) : (s.complete c).ms = s.ms := rfl
@[simp] theorem complete_psc (s : State) (c : Completion) : (s.complete c).psc = s.psc := rfl
@[simp] theorem complete_initDone (s : State) (c : Completion) : (s.complete c).initDone = s.initDone := rfl
@[simp] theorem complete_gie (s : State) (c : Completion) : (s.complete c).gie = s.gie := rfl
@[simp] theorem complete_frame (s : State) (c : Completion) : (s.complete c).frame = s.frame := rfl
@[simp] theorem complete_faults (s : State) (c : Completion) : (s.complete c).faults = s.faults := rfl
@[simp] theorem complete_completion (s : State) (c : Completion) : (s.complete c).completion = c := rfl
@[simp] theorem complete_returned (s : State) (c : Completion) : (s.complete c).returned = s.returned := rfl
@[simp] theorem complete_program (s : State) (c : Completion) : (s.complete c).program = s.program := rfl
@[simp] theorem complete_turns (s : State) (c : Completion) : (s.complete c).turns = s.turns := rfl
@[simp] theorem complete_draws (s : State) (c : Completion) : (s.complete c).draws = s.draws := rfl
@[simp] theorem complete_savedGie (s : State) (c : Completion) : (s.complete c).savedGie = s.savedGie := rfl

@[simp] theorem raise_cs (s : State) (f : FaultRecord) : (s.raise f).cs = s.cs := rfl
@[simp] theorem raise_cnt (s : State) (f : FaultRecord) : (s.raise f).cnt = s.cnt := rfl
@[simp] theorem raise_cmp (s : State) (f : FaultRecord) : (s.raise f).cmp = s.cmp := rfl
@[simp] theorem raise_cmie (s : State) (f : FaultRecord) : (s.raise f).cmie = s.cmie := rfl
@[simp] theorem raise_cmf (s : State) (f : FaultRecord) : (s.raise f).cmf = s.cmf := rfl
@[simp] theorem raise_ms (s : State) (f : FaultRecord) : (s.raise f).ms = s.ms := rfl
@[simp] theorem raise_psc (s : State) (f : FaultRecord) : (s.raise f).psc = s.psc := rfl
@[simp] theorem raise_initDone (s : State) (f : FaultRecord) : (s.raise f).initDone = s.initDone := rfl
@[simp] theorem raise_gie (s : State) (f : FaultRecord) : (s.raise f).gie = s.gie := rfl
@[simp] theorem raise_frame (s : State) (f : FaultRecord) : (s.raise f).frame = s.frame := rfl
@[simp] theorem raise_faults (s : State) (f : FaultRecord) : (s.raise f).faults = recordFault f s.faults := rfl
@[simp] theorem raise_completion (s : State) (f : FaultRecord) : (s.raise f).completion = .faulted f := rfl
@[simp] theorem raise_returned (s : State) (f : FaultRecord) : (s.raise f).returned = s.returned := rfl
@[simp] theorem raise_program (s : State) (f : FaultRecord) : (s.raise f).program = s.program := rfl
@[simp] theorem raise_turns (s : State) (f : FaultRecord) : (s.raise f).turns = s.turns := rfl
@[simp] theorem raise_draws (s : State) (f : FaultRecord) : (s.raise f).draws = s.draws := rfl
@[simp] theorem raise_savedGie (s : State) (f : FaultRecord) : (s.raise f).savedGie = s.savedGie := rfl

@[simp] theorem giveBack_cs (s : State) (r : Returned) : (s.giveBack r).cs = s.cs := rfl
@[simp] theorem giveBack_cnt (s : State) (r : Returned) : (s.giveBack r).cnt = s.cnt := rfl
@[simp] theorem giveBack_cmp (s : State) (r : Returned) : (s.giveBack r).cmp = s.cmp := rfl
@[simp] theorem giveBack_cmie (s : State) (r : Returned) : (s.giveBack r).cmie = s.cmie := rfl
@[simp] theorem giveBack_cmf (s : State) (r : Returned) : (s.giveBack r).cmf = s.cmf := rfl
@[simp] theorem giveBack_ms (s : State) (r : Returned) : (s.giveBack r).ms = s.ms := rfl
@[simp] theorem giveBack_psc (s : State) (r : Returned) : (s.giveBack r).psc = s.psc := rfl
@[simp] theorem giveBack_initDone (s : State) (r : Returned) : (s.giveBack r).initDone = s.initDone := rfl
@[simp] theorem giveBack_gie (s : State) (r : Returned) : (s.giveBack r).gie = s.gie := rfl
@[simp] theorem giveBack_frame (s : State) (r : Returned) : (s.giveBack r).frame = .idle := rfl
@[simp] theorem giveBack_faults (s : State) (r : Returned) : (s.giveBack r).faults = s.faults := rfl
@[simp] theorem giveBack_completion (s : State) (r : Returned) : (s.giveBack r).completion = s.completion := rfl
@[simp] theorem giveBack_returned (s : State) (r : Returned) : (s.giveBack r).returned = r :: s.returned := rfl
@[simp] theorem giveBack_program (s : State) (r : Returned) : (s.giveBack r).program = s.program := rfl
@[simp] theorem giveBack_turns (s : State) (r : Returned) : (s.giveBack r).turns = s.turns := rfl
@[simp] theorem giveBack_draws (s : State) (r : Returned) : (s.giveBack r).draws = s.draws := rfl
@[simp] theorem giveBack_savedGie (s : State) (r : Returned) : (s.giveBack r).savedGie = s.savedGie := rfl

@[simp] theorem service_cs (s : State) : (service s).cs = s.cs := rfl
@[simp] theorem service_cnt (s : State) : (service s).cnt = s.cnt := rfl
@[simp] theorem service_cmp (s : State) : (service s).cmp = s.cmp := rfl
@[simp] theorem service_cmie (s : State) : (service s).cmie = s.cmie := rfl
@[simp] theorem service_cmf (s : State) : (service s).cmf = false := rfl
@[simp] theorem service_ms (s : State) : (service s).ms = s.ms + 1#32 := rfl
@[simp] theorem service_psc (s : State) : (service s).psc = s.psc := rfl
@[simp] theorem service_initDone (s : State) : (service s).initDone = s.initDone := rfl
@[simp] theorem service_gie (s : State) : (service s).gie = s.gie := rfl
@[simp] theorem service_frame (s : State) : (service s).frame = s.frame := rfl
@[simp] theorem service_faults (s : State) : (service s).faults = s.faults := rfl
@[simp] theorem service_completion (s : State) : (service s).completion = s.completion := rfl
@[simp] theorem service_returned (s : State) : (service s).returned = s.returned := rfl
@[simp] theorem service_program (s : State) : (service s).program = s.program := rfl
@[simp] theorem service_turns (s : State) : (service s).turns = s.turns := rfl
@[simp] theorem service_draws (s : State) : (service s).draws = s.draws := rfl
@[simp] theorem service_savedGie (s : State) : (service s).savedGie = s.savedGie := rfl

@[simp] theorem selectClock_cnt (s : State) (c : ClockCode) (d : Nat) : (s.selectClock c d).cnt = s.cnt := by unfold State.selectClock; split <;> rfl
@[simp] theorem selectClock_cmp (s : State) (c : ClockCode) (d : Nat) : (s.selectClock c d).cmp = s.cmp := by unfold State.selectClock; split <;> rfl
@[simp] theorem selectClock_cmie (s : State) (c : ClockCode) (d : Nat) : (s.selectClock c d).cmie = s.cmie := by unfold State.selectClock; split <;> rfl
@[simp] theorem selectClock_cmf (s : State) (c : ClockCode) (d : Nat) : (s.selectClock c d).cmf = s.cmf := by unfold State.selectClock; split <;> rfl
@[simp] theorem selectClock_ms (s : State) (c : ClockCode) (d : Nat) : (s.selectClock c d).ms = s.ms := by unfold State.selectClock; split <;> rfl
@[simp] theorem selectClock_initDone (s : State) (c : ClockCode) (d : Nat) : (s.selectClock c d).initDone = s.initDone := by unfold State.selectClock; split <;> rfl
@[simp] theorem selectClock_gie (s : State) (c : ClockCode) (d : Nat) : (s.selectClock c d).gie = s.gie := by unfold State.selectClock; split <;> rfl
@[simp] theorem selectClock_frame (s : State) (c : ClockCode) (d : Nat) : (s.selectClock c d).frame = s.frame := by unfold State.selectClock; split <;> rfl
@[simp] theorem selectClock_faults (s : State) (c : ClockCode) (d : Nat) : (s.selectClock c d).faults = s.faults := by unfold State.selectClock; split <;> rfl
@[simp] theorem selectClock_completion (s : State) (c : ClockCode) (d : Nat) : (s.selectClock c d).completion = s.completion := by unfold State.selectClock; split <;> rfl
@[simp] theorem selectClock_returned (s : State) (c : ClockCode) (d : Nat) : (s.selectClock c d).returned = s.returned := by unfold State.selectClock; split <;> rfl
@[simp] theorem selectClock_program (s : State) (c : ClockCode) (d : Nat) : (s.selectClock c d).program = s.program := by unfold State.selectClock; split <;> rfl
@[simp] theorem selectClock_turns (s : State) (c : ClockCode) (d : Nat) : (s.selectClock c d).turns = s.turns := by unfold State.selectClock; split <;> rfl
@[simp] theorem selectClock_savedGie (s : State) (c : ClockCode) (d : Nat) : (s.selectClock c d).savedGie = s.savedGie := by unfold State.selectClock; split <;> rfl

@[simp] theorem selectClock_cs (s : State) (c : ClockCode) (d : Nat) : (s.selectClock c d).cs = c := by
  unfold State.selectClock; split <;> simp_all

@[simp] theorem tick_cs (s : State) : (tick s).cs = s.cs := by unfold tick; split <;> rfl
@[simp] theorem tick_cmp (s : State) : (tick s).cmp = s.cmp := by unfold tick; split <;> rfl
@[simp] theorem tick_cmie (s : State) : (tick s).cmie = s.cmie := by unfold tick; split <;> rfl
@[simp] theorem tick_ms (s : State) : (tick s).ms = s.ms := by unfold tick; split <;> rfl
@[simp] theorem tick_psc (s : State) : (tick s).psc = s.psc := by unfold tick; split <;> rfl
@[simp] theorem tick_initDone (s : State) : (tick s).initDone = s.initDone := by unfold tick; split <;> rfl
@[simp] theorem tick_gie (s : State) : (tick s).gie = s.gie := by unfold tick; split <;> rfl
@[simp] theorem tick_frame (s : State) : (tick s).frame = s.frame := by unfold tick; split <;> rfl
@[simp] theorem tick_faults (s : State) : (tick s).faults = s.faults := by unfold tick; split <;> rfl
@[simp] theorem tick_completion (s : State) : (tick s).completion = s.completion := by unfold tick; split <;> rfl
@[simp] theorem tick_returned (s : State) : (tick s).returned = s.returned := by unfold tick; split <;> rfl
@[simp] theorem tick_program (s : State) : (tick s).program = s.program := by unfold tick; split <;> rfl
@[simp] theorem tick_turns (s : State) : (tick s).turns = s.turns := by unfold tick; split <;> rfl
@[simp] theorem tick_draws (s : State) : (tick s).draws = s.draws := by unfold tick; split <;> rfl
@[simp] theorem tick_savedGie (s : State) : (tick s).savedGie = s.savedGie := by unfold tick; split <;> rfl

end Sys2Proof.Machine
end

