-- ==== Sys2Proof/Laws/Ops.lean ====
section
/-! SUPPORT. For each shared operation, one lemma that says once everything it can do; the proofs cite these
instead of unfolding the operations. -/

namespace Sys2Proof.Machine

open Host (Outcome)

/-! ### The fault record -/

theorem mem_recordFault (f g : FaultRecord) (l : List FaultRecord) : g ∈ recordFault f l ↔ g = f ∨ g ∈ l := by
  unfold recordFault
  split
  · constructor
    · exact Or.inr
    · rintro (rfl | h) <;> assumption
  · simp [or_comm]

theorem nodup_recordFault (f : FaultRecord) (l : List FaultRecord) (h : l.Nodup) : (recordFault f l).Nodup := by
  unfold recordFault
  split
  · exact h
  · rename_i hf
    exact List.nodup_append.2 ⟨h, by simp, fun a ha b hb => by simp at hb; rintro rfl; exact hf (hb ▸ ha)⟩

theorem recordFault_ne_nil (f : FaultRecord) (l : List FaultRecord) : recordFault f l ≠ [] :=
  List.ne_nil_of_mem ((mem_recordFault f f l).2 (Or.inl rfl))

/-! ### Operands -/

theorem divisor_pos {c : ClockCode} {d : Nat} (h : divisor c = some d) : 0 < d := by
  revert h; revert c
  intro c h
  unfold divisor at h
  split at h <;> simp_all <;> omega

theorem divisor_isSome_iff : ∀ c : ClockCode, (divisor c).isSome = true ↔ c.toNat ≤ 5 := by decide

theorem divisor_clockCode {n : Nat} {c : ClockCode} (h : clockCode n = some c) : divisor c = some n := by
  unfold clockCode at h
  split at h <;> simp_all <;> subst h <;> rfl

theorem drawPhase_lt (k : Nat) {d : Nat} (h : 0 < d) : drawPhase k d < d := Nat.mod_lt _ h

/-! ### Selecting the clock -/

/-- All that a write of the clock select does (41 R133). -/
theorem selectClock_cases (s : State) (c : ClockCode) {d : Nat} (hd : 0 < d) :
    (c = s.cs ∧ s.selectClock c d = s) ∨
    (c ≠ s.cs ∧ ∃ p, p < d ∧ s.selectClock c d = { s with cs := c, psc := p, draws := s.draws + 1 }) := by
  unfold State.selectClock
  split
  · exact Or.inl ⟨‹_›, rfl⟩
  · exact Or.inr ⟨‹_›, _, drawPhase_lt _ hd, rfl⟩

/-! ### The timer, the service and the host -/

/-- All that a tick does (43 R182). -/
theorem tick_cases (s : State) :
    (s.cnt = s.cmp ∧ tick s = { s with cnt := 0#16, cmf := true }) ∨
    (s.cnt ≠ s.cmp ∧ tick s = { s with cnt := s.cnt + 1#16 }) := by
  by_cases h : s.cnt = s.cmp
  · exact Or.inl ⟨h, by simp [tick, compareMatch, flagAfterTick, h]⟩
  · exact Or.inr ⟨h, by simp [tick, compareMatch, flagAfterTick, h]⟩

/-- All that a turn of the timer can do when the machine goes on (43 R180, R181). -/
theorem clockEdge_cases {s t : State} (h : clockEdge s = .next t) :
    (s.cs = 0#3 ∧ t = s) ∨
    ∃ d, s.cs ≠ 0#3 ∧ divisor s.cs = some d ∧
      ((s.psc + 1 = d ∧ t = tick { s with psc := 0 }) ∨ (s.psc + 1 ≠ d ∧ t = { s with psc := s.psc + 1 })) := by
  unfold clockEdge at h
  split at h
  · exact Or.inl ⟨‹_›, by cases h; rfl⟩
  · split at h
    · cases h
    · rename_i d hd
      refine Or.inr ⟨d, ‹_›, hd, ?_⟩
      cases h
      split
      · exact Or.inl ⟨‹_›, rfl⟩
      · exact Or.inr ⟨‹_›, rfl⟩

/-- All that a turn of the interrupt does (44 R200). -/
theorem serviceTurn_cases (s : State) :
    (s.gie = true ∧ s.cmie = true ∧ s.cmf = true ∧ serviceTurn s = { s with cmf := false, ms := s.ms + 1#32 }) ∨
    (¬ (s.gie = true ∧ s.cmie = true ∧ s.cmf = true) ∧ serviceTurn s = s) := by
  unfold serviceTurn State.serviceEnabled serviceTrigger irqLevel
  cases hg : s.gie <;> cases hi : s.cmie <;> cases hf : s.cmf <;> simp [service, hg, hi]

/-- All that a turn of the host does (60 R236): it writes `GIE` and the values it saved, nothing else. -/
theorem hostTurn_cases (a : HostAct) (s : State) :
    ∃ g l, hostTurn a s = { s with gie := g, savedGie := l } := by
  unfold hostTurn
  split
  · exact ⟨_, _, rfl⟩
  · exact ⟨_, _, rfl⟩
  · split
    · exact ⟨s.gie, s.savedGie, rfl⟩
    · exact ⟨_, _, rfl⟩

/-! ### Bus transactions -/

/-- The ways a transaction's rule can change the state (41 R130 to R143). -/
inductive BusEffect (s : State) : State → Prop
  /-- A read completes with the register's value. -/
  | read (r : Reg) : BusEffect s (s.complete (.rdata (s.readReg r)))
  /-- The transaction ends with a fault. -/
  | fault (f : FaultRecord) : BusEffect s (s.raise f)
  | clock (c : ClockCode) (d : Nat) (h : divisor c = some d) : BusEffect s ((s.selectClock c d).complete .written)
  | compare (v : Half) : BusEffect s ({ s with cmp := v }.complete .written)
  | interruptEnable (b : Bool) : BusEffect s ({ s with cmie := b }.complete .written)
  | flagClear (b : Bool) : BusEffect s ({ s with cmf := flagAfterClear s.cmf b }.complete .written)

/-- Every transaction answers a next state, and it changes the state in one of six ways. -/
theorem exec_effect (i : Instr) (s : State) : ∃ t, exec i s = .next t ∧ BusEffect s t := by
  cases i with
  | rdCtrl => exact ⟨_, rfl, .read .ctrl⟩
  | rdCnt => exact ⟨_, rfl, .read .cnt⟩
  | rdCmp => exact ⟨_, rfl, .read .cmp⟩
  | rdIer => exact ⟨_, rfl, .read .ier⟩
  | rdIfr => exact ⟨_, rfl, .read .ifr⟩
  | rdMs => exact ⟨_, rfl, .read .ms⟩
  | wrCnt d => exact ⟨_, rfl, .fault _⟩
  | wrMs d => exact ⟨_, rfl, .fault _⟩
  | wrCtrl d =>
    simp only [exec, execWrCtrl]
    split
    · exact ⟨_, rfl, .fault _⟩
    · split
      · exact ⟨_, rfl, .fault _⟩
      · exact ⟨_, rfl, .clock _ _ ‹_›⟩
  | wrCmp d =>
    simp only [exec, execWrCmp]
    split
    · exact ⟨_, rfl, .fault _⟩
    · exact ⟨_, rfl, .compare _⟩
  | wrIer d =>
    simp only [exec, execWrIer]
    split
    · exact ⟨_, rfl, .fault _⟩
    · exact ⟨_, rfl, .interruptEnable _⟩
  | wrIfr d =>
    simp only [exec, execWrIfr]
    split
    · exact ⟨_, rfl, .fault _⟩
    · exact ⟨_, rfl, .flagClear _⟩

/-- A transaction from its descriptor answers a next state, and it changes the state in one of six ways. -/
theorem transact_effect (T : Descriptor) (s : State) : ∃ t, transact T s = .next t ∧ BusEffect s t := by
  unfold transact
  split
  · exact ⟨_, rfl, .fault _⟩
  · exact exec_effect _ s

/-- A register's bus address lies in the window, at its offset (20 R50, 41 R144). -/
theorem windowOffset_busAddress (cfg : ClockConfig) (off : Offset) :
    windowOffset cfg (busAddress cfg off) = some off := by
  have h := off.isLt
  have e : BitVec.ofNat 8 (cfg.timerBase + off.toNat - cfg.timerBase) = off := by
    apply BitVec.eq_of_toNat_eq
    simp
  unfold windowOffset busAddress
  rw [if_pos (by omega), e]

theorem memRead_busAddress (cfg : ClockConfig) (off : Offset) (s : State) :
    memRead cfg (busAddress cfg off) s = transact (readDescriptor off) s := by
  rw [memRead, windowOffset_busAddress]

theorem memWrite_busAddress (cfg : ClockConfig) (off : Offset) (d : Word) (s : State) :
    memWrite cfg (busAddress cfg off) d s = transact (writeDescriptor off d) s := by
  rw [memWrite, windowOffset_busAddress]

/-- A bus read of a register runs its read transaction. -/
theorem transact_read (r : Reg) (s : State) : transact (readDescriptor r.offset) s = exec r.readInstr s := by
  rw [transact, decode_readDescriptor, ofOffset_offset]

/-- A bus write of a register runs its write transaction. -/
theorem transact_write (r : Reg) (d : Word) (s : State) :
    transact (writeDescriptor r.offset d) s = exec (r.writeInstr d) s := by
  rw [transact, decode_writeDescriptor, ofOffset_offset]

/-- A procedure's write step is the write transaction, then the next frame (00 R12). -/
theorem writeStep_eq (cfg : ClockConfig) (r : Reg) (d : Word) (f : Frame) (s : State) :
    writeStep cfg r.offset d f s = afterWrite (exec (r.writeInstr d) s) f := by
  rw [writeStep, memWrite_busAddress, transact_write]

/-- A procedure's read step completes with the register's value in the local (00 R12). -/
theorem readStep_eq (cfg : ClockConfig) (r : Reg) (k : Word → Frame) (s : State) :
    readStep cfg r.offset k s =
      .next { s with completion := .rdata (s.readReg r), frame := k (s.readReg r) } := by
  rw [readStep, memRead_busAddress, transact_read]
  cases r <;> rfl

/-- All that a procedure's write step can do: the transaction's effect, then frame `f` if it was written. -/
theorem writeStep_cases (cfg : ClockConfig) (off : Offset) (d : Word) (f : Frame) (s : State) :
    ∃ u, BusEffect s u ∧
      (writeStep cfg off d f s = .next u ∨ writeStep cfg off d f s = .next { u with frame := f }) := by
  obtain ⟨u, hu, he⟩ := transact_effect (writeDescriptor off d) s
  refine ⟨u, he, ?_⟩
  simp only [writeStep, memWrite_busAddress, hu, afterWrite]
  split
  · exact Or.inr rfl
  · exact Or.inl rfl

end Sys2Proof.Machine
end

