-- ==== Sys2Proof/Laws/Foreground.lean ====
section
/-! SUPPORT. What one turn of `FG` can do, said once: nothing, one bus transaction, a local computation, or a
fault outside any transaction. -/

namespace Sys2Proof.Machine

open Host (Outcome)

/-- The ways a turn of `FG` can change the state. -/
inductive ForegroundEffect (cfg : ValidConfig) (s : State) : State → Prop
  /-- `FG` is stopped by a fault, or its program is over. -/
  | rest (h : foregroundDescriptor cfg s = none) : ForegroundEffect cfg s s
  /-- A raw transaction of the program, or a procedure's transaction that faulted. -/
  | issue (T : Descriptor) (p : List Request) (u : State) (hf : s.faults = [])
      (hd : foregroundDescriptor cfg s = some T) (hu : transact T { s with program := p } = .next u) :
      ForegroundEffect cfg s u
  /-- A procedure's transaction that completed without a fault. -/
  | advance (T : Descriptor) (u : State) (f : Frame) (hf : s.faults = []) (hr : s.frame ≠ .idle)
      (hd : foregroundDescriptor cfg s = some T) (hu : transact T s = .next u)
      (hc : ∀ e, u.completion ≠ .faulted e) (hl : f.turnsLeft < s.frame.turnsLeft) :
      ForegroundEffect cfg s { u with frame := f }
  /-- A local computation of a procedure, the start of a call, or a conversion. -/
  | compute (p : List Request) (f : Frame) (i : Bool) (r : List Returned) (d : Nat) (hf : s.faults = [])
      (hd : foregroundDescriptor cfg s = none) (hi : s.initDone = true → i = true)
      (hr : f ≠ .idle → i = true ∨ s.frame ≠ .idle)
      (hl : s.frame ≠ .idle → f.turnsLeft < s.frame.turnsLeft) :
      ForegroundEffect cfg s { s with program := p, frame := f, initDone := i, returned := r, draws := d }
  /-- A misuse of a procedure, or a conversion out of range. -/
  | misuse (p : List Request) (e : FaultRecord) (hf : s.faults = [])
      (hd : foregroundDescriptor cfg s = none) : ForegroundEffect cfg s ({ s with program := p }.raise e)

theorem writeStep_foreground {cfg : ValidConfig} {s t : State} {off : Offset} {d : Word} {f : Frame}
    (hf : s.faults = []) (hr : s.frame ≠ .idle) (hl : f.turnsLeft < s.frame.turnsLeft)
    (hd : foregroundDescriptor cfg s = some (writeDescriptor off d))
    (h : writeStep cfg.clock off d f s = .next t) : ForegroundEffect cfg s t := by
  obtain ⟨u, hu, -⟩ := transact_effect (writeDescriptor off d) s
  simp only [writeStep, memWrite_busAddress, hu, afterWrite] at h
  split at h
  · cases h
    exact .advance _ u f hf hr hd hu (by simp_all) hl
  · cases h
    exact .issue _ s.program _ hf hd hu

theorem readStep_foreground {cfg : ValidConfig} {s t : State} {off : Offset} {k : Word → Frame}
    (hf : s.faults = []) (hr : s.frame ≠ .idle) (hl : ∀ v, (k v).turnsLeft < s.frame.turnsLeft)
    (hd : foregroundDescriptor cfg s = some (readDescriptor off))
    (h : readStep cfg.clock off k s = .next t) : ForegroundEffect cfg s t := by
  obtain ⟨u, hu, -⟩ := transact_effect (readDescriptor off) s
  simp only [readStep, memRead_busAddress, hu, afterRead] at h
  split at h
  · cases h
    exact .advance _ u _ hf hr hd hu (by simp_all) (hl _)
  · cases h
    exact .issue _ s.program _ hf hd hu

theorem procStep_foreground {cfg : ValidConfig} {s t : State} (hf : s.faults = []) (hr : s.frame ≠ .idle)
    (h : procStep cfg s = .next t) : ForegroundEffect cfg s t := by
  unfold procStep at h
  split at h <;> rename_i hfr
  case h_1 => exact absurd hfr hr
  case h_11 =>
    cases h
    exact .compute s.program .idle s.initDone _ s.draws hf (by simp [foregroundDescriptor, hf, hfr])
      id (by simp) (by simp [hfr, Frame.turnsLeft])
  case h_13 =>
    cases h
    exact .compute s.program .idle s.initDone _ s.draws hf (by simp [foregroundDescriptor, hf, hfr])
      id (by simp) (by simp [hfr, Frame.turnsLeft])
  case h_14 =>
    split at h <;> cases h
    · exact .compute s.program .microsMsThenCnt s.initDone s.returned _ hf
        (by simp [foregroundDescriptor, hf, hfr]) id (fun _ => Or.inr hr) (by simp [hfr, Frame.turnsLeft])
    · exact .compute s.program .microsCntThenMs s.initDone s.returned _ hf
        (by simp [foregroundDescriptor, hf, hfr]) id (fun _ => Or.inr hr) (by simp [hfr, Frame.turnsLeft])
  case h_19 =>
    split at h <;> cases h
    · exact .compute s.program _ s.initDone s.returned s.draws hf (by simp [foregroundDescriptor, hf, hfr])
        id (fun _ => Or.inr hr) (by simp [hfr, Frame.turnsLeft])
    · exact .misuse s.program _ hf (by simp [foregroundDescriptor, hf, hfr])
  case h_20 =>
    cases h
    exact .compute s.program .idle s.initDone _ s.draws hf (by simp [foregroundDescriptor, hf, hfr])
      id (by simp) (by simp [hfr, Frame.turnsLeft])
  case h_2 | h_3 | h_4 | h_5 | h_6 | h_7 | h_8 | h_9 =>
    exact writeStep_foreground hf hr (by rw [hfr]; decide) (by simp [foregroundDescriptor, hf, hfr]) h
  case h_10 | h_12 | h_15 | h_16 | h_17 | h_18 =>
    exact readStep_foreground hf hr (by simp [hfr, Frame.turnsLeft]) (by simp [foregroundDescriptor, hf, hfr]) h

theorem startRequest_foreground {cfg : ValidConfig} {s t : State} {r : Request} {rest : List Request}
    (hf : s.faults = []) (hr : s.frame = .idle) (hp : s.program = r :: rest)
    (h : startRequest cfg r { s with program := rest } = .next t) : ForegroundEffect cfg s t := by
  cases r with
  | txn T => exact .issue T rest t hf (by simp [foregroundDescriptor, hf, hr, hp]) h
  | memRead addr =>
    simp only [startRequest, memRead] at h
    split at h
    · rename_i off ho
      exact .issue _ rest t hf (by simp [foregroundDescriptor, hf, hr, hp, ho]) h
    · cases h
  | memWrite addr d =>
    simp only [startRequest, memWrite] at h
    split at h
    · rename_i off ho
      exact .issue _ rest t hf (by simp [foregroundDescriptor, hf, hr, hp, ho]) h
    · cases h
  | call p =>
    have hd : foregroundDescriptor cfg s = none := by simp [foregroundDescriptor, hf, hr, hp]
    simp only [startRequest, checkInit] at h
    split at h
    · split at h <;> cases h
      · exact .misuse rest _ hf hd
      · exact .compute rest _ true s.returned s.draws hf hd (fun _ => rfl) (fun _ => Or.inl rfl) (absurd hr)
    · split at h
      · rename_i hi
        cases h
        exact .compute rest _ s.initDone s.returned s.draws hf hd id (fun _ => Or.inl hi) (absurd hr)
      · cases h
        exact .misuse rest _ hf hd
  | convert f x =>
    have hd : foregroundDescriptor cfg s = none := by simp [foregroundDescriptor, hf, hr, hp]
    simp only [startRequest] at h
    split at h <;> cases h
    · exact .compute rest .idle s.initDone _ s.draws hf hd id (by simp) (absurd hr)
    · exact .misuse rest _ hf hd

/-- All that a turn of `FG` can do when the machine goes on. -/
theorem foregroundTurn_effect {cfg : ValidConfig} {s t : State} (h : foregroundTurn cfg s = .next t) :
    ForegroundEffect cfg s t := by
  unfold foregroundTurn at h
  split at h
  · rename_i hf
    cases h
    exact .rest (by simp [foregroundDescriptor, hf])
  · rename_i hf
    have hf : s.faults = [] := by simpa using hf
    split at h
    · exact procStep_foreground hf ‹_› h
    · rename_i hr
      have hr : s.frame = .idle := by simpa using hr
      split at h
      · rename_i hp
        cases h
        exact .rest (by simp [foregroundDescriptor, hf, hr, hp])
      · exact startRequest_foreground hf hr ‹_› h

end Sys2Proof.Machine
end

