-- ==== Sys2Proof/Laws/PerInstr.lean ====
section
/-! SUPPORT. Facts about every instruction as syntax, one lemma per constructor of `Instr`.
`FieldsOfEncoding`: the four fields of 30 R71 in the descriptor of an instruction are the ones its row of 30
R73 gives (`DIR`, `RSV` = 0, `OFF`, and `DATA` = the operand, 0 for a read). -/

namespace Sys2Proof.Laws.FieldsOfEncoding

open Sys2Proof Sys2Proof.Machine

/-- The direction, offset and data of an instruction's row (30 R73). -/
def row : Instr → Bool × Offset × Word
  | .rdCtrl => (false, 0x00#8, 0#32)
  | .wrCtrl d => (true, 0x00#8, d)
  | .rdCnt => (false, 0x04#8, 0#32)
  | .wrCnt d => (true, 0x04#8, d)
  | .rdCmp => (false, 0x08#8, 0#32)
  | .wrCmp d => (true, 0x08#8, d)
  | .rdIer => (false, 0x0C#8, 0#32)
  | .wrIer d => (true, 0x0C#8, d)
  | .rdIfr => (false, 0x10#8, 0#32)
  | .wrIfr d => (true, 0x10#8, d)
  | .rdMs => (false, 0x14#8, 0#32)
  | .wrMs d => (true, 0x14#8, d)

/-- The descriptor of `i` holds the fields of its row. -/
def Statement (i : Instr) : Prop :=
  (dirField (encode i), offField (encode i), dataField (encode i)) = row i ∧ rsvField (encode i) = 0#23

theorem of_read {i : Instr} (off : Offset) (he : encode i = readDescriptor off)
    (hr : row i = (false, off, 0#32)) : Statement i := by
  simp [Statement, he, hr, dirField_readDescriptor, offField_readDescriptor, dataField_readDescriptor,
    rsvField_readDescriptor]

theorem of_write {i : Instr} (off : Offset) (d : Word) (he : encode i = writeDescriptor off d)
    (hr : row i = (true, off, d)) : Statement i := by
  simp [Statement, he, hr, dirField_writeDescriptor, offField_writeDescriptor, dataField_writeDescriptor,
    rsvField_writeDescriptor]

theorem rdCtrl : Statement .rdCtrl := of_read _ rfl rfl
theorem wrCtrl (d : Word) : Statement (.wrCtrl d) := of_write _ d rfl rfl
theorem rdCnt : Statement .rdCnt := of_read _ rfl rfl
theorem wrCnt (d : Word) : Statement (.wrCnt d) := of_write _ d rfl rfl
theorem rdCmp : Statement .rdCmp := of_read _ rfl rfl
theorem wrCmp (d : Word) : Statement (.wrCmp d) := of_write _ d rfl rfl
theorem rdIer : Statement .rdIer := of_read _ rfl rfl
theorem wrIer (d : Word) : Statement (.wrIer d) := of_write _ d rfl rfl
theorem rdIfr : Statement .rdIfr := of_read _ rfl rfl
theorem wrIfr (d : Word) : Statement (.wrIfr d) := of_write _ d rfl rfl
theorem rdMs : Statement .rdMs := of_read _ rfl rfl
theorem wrMs (d : Word) : Statement (.wrMs d) := of_write _ d rfl rfl

end Sys2Proof.Laws.FieldsOfEncoding
end

