-- ==== Sys2Proof/Laws/Runs.lean ====
section
/-! SUPPORT. What a run of several turns is, said once: its first turn and the rest, and the runs of two halves. And the
small lemmas of a configuration's clock-select code and of a replaced register state. -/

namespace Sys2Proof.Machine

/-- A run that goes on is a first turn that goes on and a run of the others. -/
theorem runTurns_cons {cfg : ValidConfig} {x : Turn} {xs : List Turn} {s t : State} :
    runTurns cfg (x :: xs) s = .next t ↔ ∃ u, takeTurn cfg x s = .next u ∧ runTurns cfg xs u = .next t := by
  cases h : takeTurn cfg x s <;> simp [runTurns, h]

/-- A run that goes on through two lists of turns is a run of the first and then one of the second. -/
theorem runTurns_append {cfg : ValidConfig} {xs ys : List Turn} {s t : State} :
    runTurns cfg (xs ++ ys) s = .next t ↔ ∃ u, runTurns cfg xs s = .next u ∧ runTurns cfg ys u = .next t := by
  induction xs generalizing s with
  | nil => simp [runTurns]
  | cons x xs ih =>
    simp only [List.cons_append, runTurns_cons, ih]
    constructor
    · rintro ⟨u, hu, v, hv, h⟩
      exact ⟨v, ⟨u, hu, hv⟩, h⟩
    · rintro ⟨v, ⟨u, hu, hv⟩, h⟩
      exact ⟨u, hu, v, hv, h⟩

@[simp] theorem csCode_clock (cfg : ValidConfig) : csCode cfg.clock = some (initCode cfg) := by simp [initCode]

@[simp] theorem withRegisters_registers (s : State) (r : Registers) : (s.withRegisters r).registers = r := rfl
@[simp] theorem withRegisters_psc (s : State) (r : Registers) : (s.withRegisters r).psc = s.psc := rfl
@[simp] theorem withRegisters_frame (s : State) (r : Registers) : (s.withRegisters r).frame = s.frame := rfl
@[simp] theorem withRegisters_faults (s : State) (r : Registers) : (s.withRegisters r).faults = s.faults := rfl
@[simp] theorem withRegisters_program (s : State) (r : Registers) : (s.withRegisters r).program = s.program := rfl
@[simp] theorem withRegisters_returned (s : State) (r : Registers) : (s.withRegisters r).returned = s.returned := rfl
@[simp] theorem withRegisters_initDone (s : State) (r : Registers) : (s.withRegisters r).initDone = s.initDone := rfl
@[simp] theorem withRegisters_draws (s : State) (r : Registers) : (s.withRegisters r).draws = s.draws := rfl

end Sys2Proof.Machine
end

