-- ==== Sys2Proof/Tests/Slice0.lean ====
section
/-! SUPPORT. The author's tests. The expected results are the spec's own: the derived vectors of
95_test_vectors.md §2, or read off the encoding table of 30 §2 and §3. Then, for every statement that has
hypotheses, a concrete case that meets them. -/

namespace Sys2Proof.Tests

open Sys2Proof Sys2Proof.Machine

/-- The start state of the vectors of 95 §2.2. -/
def vec : State :=
  { State.reset with cs := 3#3, cnt := 100#16, cmp := 249#16, cmie := true, ms := 5#32, gie := true, initDone := true }

/-- The reference configuration of 00 §4 (16 MHz, divisor 64). -/
def ref : ValidConfig := Config.reference 0x1000

/-- 16 MHz with divisor 8, a configuration of tier `SMALL` (95 §2.1). -/
def small8 : ValidConfig := { clock := ⟨16000000, 8, prescaleSet, 0x1000⟩ }

/-- 8 MHz with divisor 8, the equal case of the tiers (95 §2.1). -/
def equal8 : ValidConfig := { clock := ⟨8000000, 8, prescaleSet, 0x1000⟩ }

/-- `s` with `FG` about to call `p`. -/
def calling (p : Proc) (s : State) : State := { s with program := [.call p] }

/-! ### Well-formedness: one ill-formed term per check -/

theorem test_wf_ctrl_reserved_bit : (Instr.wrCtrl 0x00000008#32).wellFormed = false := by decide
theorem test_wf_ctrl_code : (Instr.wrCtrl 6#32).wellFormed = false ∧ (Instr.wrCtrl 7#32).wellFormed = false := by decide
theorem test_wf_cmp : (Instr.wrCmp 0x00010000#32).wellFormed = false := by decide
theorem test_wf_ier : (Instr.wrIer 2#32).wellFormed = false := by decide
theorem test_wf_ifr : (Instr.wrIfr 3#32).wellFormed = false := by decide
theorem test_wf_good : (Instr.wrCtrl 5#32).wellFormed ∧ (Instr.wrCmp 0xFFFF#32).wellFormed ∧
    (Instr.wrIer 1#32).wellFormed ∧ (Instr.wrIfr 0#32).wellFormed ∧ (Instr.wrCnt 9#32).wellFormed ∧
    (Instr.wrMs 9#32).wellFormed ∧ Instr.rdMs.wellFormed := by decide

/-! ### Decoding: a word written out from 30 §2 and §3 for every constructor -/

theorem test_decode_rd_ctrl : decode 0x0000000000000000#64 = .ok .rdCtrl := by rfl
theorem test_decode_wr_ctrl : decode 0x8000000000000005#64 = .ok (.wrCtrl 5#32) := by rfl
theorem test_decode_rd_cnt : decode 0x0000000400000000#64 = .ok .rdCnt := by rfl
theorem test_decode_wr_cnt : decode 0x80000004FFFFFFFF#64 = .ok (.wrCnt 0xFFFFFFFF#32) := by rfl
theorem test_decode_rd_cmp : decode 0x0000000800000000#64 = .ok .rdCmp := by rfl
theorem test_decode_wr_cmp : decode 0x80000008000000F9#64 = .ok (.wrCmp 249#32) := by rfl
theorem test_decode_rd_ier : decode 0x0000000C00000000#64 = .ok .rdIer := by rfl
theorem test_decode_wr_ier : decode 0x8000000C00000001#64 = .ok (.wrIer 1#32) := by rfl
theorem test_decode_rd_ifr : decode 0x0000001000000000#64 = .ok .rdIfr := by rfl
theorem test_decode_wr_ifr : decode 0x8000001000000003#64 = .ok (.wrIfr 3#32) := by rfl
theorem test_decode_rd_ms : decode 0x0000001400000000#64 = .ok .rdMs := by rfl
theorem test_decode_wr_ms : decode 0x8000001480000000#64 = .ok (.wrMs 0x80000000#32) := by rfl

/-- The rejected descriptors of 95 §2.2, bit 40 and bit 62 set, a read with data, and step 1 winning. -/
theorem test_decode_illegal :
    [0x0000010000000000#64, 0x4000000000000000#64, 0x0000000400000001#64, 0x0000011800000001#64].map decode =
      [0x0000010000000000#64, 0x4000000000000000#64, 0x0000000400000001#64, 0x0000011800000001#64].map
        (fun T => .error (.illegalTransaction T)) := by rfl

/-- The rejected offsets of 95 §2.2. -/
theorem test_decode_bad_offset :
    [0x0000000200000000#64, 0x0000001800000000#64, 0x800000FC00000001#64].map decode =
      [.error (.badOffset 0x02#8), .error (.badOffset 0x18#8), .error (.badOffset 0xFC#8)] := by rfl

/-- 30 §3: the rows of the opcode map in the table's order, read from their serialised bytes. -/
theorem test_decode_table_words :
    opcodeRows.map (fun r => decodeTableWord 64 (r.pattern.toNat)) =
      [some .rdCtrl, some (.wrCtrl 0#32), some .rdCnt, some (.wrCnt 0#32), some .rdCmp, some (.wrCmp 0#32),
        some .rdIer, some (.wrIer 0#32), some .rdIfr, some (.wrIfr 0#32), some .rdMs, some (.wrMs 0#32)] := by decide

/-- 20 §2: least-significant byte first. -/
theorem test_bytes : descriptorBytes 0x80000008000000F9#64 = [0xF9#8, 0#8, 0#8, 0#8, 8#8, 0#8, 0#8, 0x80#8] := by decide

theorem test_word_bytes :
    wordBytes 0x12345678#32 = [0x78#8, 0x56#8, 0x34#8, 0x12#8] ∧
    wordOfBytes [0x78#8, 0x56#8, 0x34#8, 0x12#8] = some 0x12345678#32 := by decide

/-! ### The transactions, from the vectors of 95 §2.2 -/

theorem test_rd_ctrl : transact 0x0000000000000000#64 vec = .next { vec with completion := .rdata 3#32 } := by rfl
theorem test_rd_cnt : transact 0x0000000400000000#64 vec = .next { vec with completion := .rdata 100#32 } := by rfl
theorem test_rd_cmp : transact 0x0000000800000000#64 vec = .next { vec with completion := .rdata 249#32 } := by rfl
theorem test_rd_ier : transact 0x0000000C00000000#64 vec = .next { vec with completion := .rdata 1#32 } := by rfl
theorem test_rd_ifr : transact 0x0000001000000000#64 vec = .next { vec with completion := .rdata 0#32 } := by rfl
theorem test_rd_ms : transact 0x0000001400000000#64 vec = .next { vec with completion := .rdata 5#32 } := by rfl

/-- The phase is a free value, so only the other fields are looked at. -/
theorem test_wr_ctrl_new_code :
    ∃ t, transact 0x8000000000000005#64 vec = .next t ∧ t.registers = ⟨5#3, 100#16, 249#16, true, false, 5#32⟩ ∧
      t.completion = .written := ⟨_, rfl, rfl, rfl⟩

/-- The same code changes nothing; a reserved bit is looked at before the code. -/
theorem test_wr_ctrl_rest :
    transact 0x8000000000000003#64 vec = .next { vec with completion := .written } ∧
    transact 0x8000000000000006#64 vec = .next (vec.raise (.reservedPrescaleCode 6#3)) ∧
    transact 0x800000000000000E#64 vec = .next (vec.raise (.reservedBits 0x00#8 0xE#32)) := ⟨rfl, rfl, rfl⟩

theorem test_wr_cnt : transact 0x8000000400000000#64 vec = .next (vec.raise (.readOnlyWrite 0x04#8)) := by rfl
theorem test_wr_cmp : transact 0x8000000800000064#64 vec = .next { vec with cmp := 100#16, completion := .written } := by rfl
theorem test_wr_cmp_reserved : transact 0x8000000800010000#64 vec = .next (vec.raise (.reservedBits 0x08#8 0x10000#32)) := by rfl
theorem test_wr_ier : transact 0x8000000C00000000#64 vec = .next { vec with cmie := false, completion := .written } := by rfl
theorem test_wr_ier_reserved : transact 0x8000000C00000002#64 vec = .next (vec.raise (.reservedBits 0x0C#8 2#32)) := by rfl
theorem test_wr_ifr : transact 0x8000001000000001#64 { vec with cmf := true } = .next { vec with completion := .written } := by rfl
theorem test_wr_ifr_reserved : transact 0x8000001000000003#64 vec = .next (vec.raise (.reservedBits 0x10#8 3#32)) := by rfl
theorem test_wr_ms : transact 0x8000001400000000#64 vec = .next (vec.raise (.readOnlyWrite 0x14#8)) := by rfl

/-- A raised fault is recorded once (60 §1). -/
theorem test_raise : ((vec.raise .notInitialized).raise .notInitialized).faults = [.notInitialized] := by decide

/-! ### The timer and the service, from the vectors of 95 §2.3 and §2.5 -/

theorem test_edge_without_tick : clockEdge { vec with psc := 62 } = .next { vec with psc := 63 } := by rfl
theorem test_edge_with_tick : clockEdge { vec with psc := 63, cnt := 10#16 } = .next { vec with psc := 0, cnt := 11#16 } := by rfl
theorem test_edge_stopped : clockEdge { vec with cs := 0#3, cnt := 7#16 } = .next { vec with cs := 0#3, cnt := 7#16 } := by rfl
theorem test_tick_match : tick { vec with cnt := 249#16 } = { vec with cnt := 0#16, cmf := true } := by decide
theorem test_tick_wrap : tick { vec with cnt := 0xFFFF#16 } = { vec with cnt := 0#16 } := by decide
theorem test_tick_match_at_the_top :
    tick { vec with cnt := 0xFFFF#16, cmp := 0xFFFF#16 } = { vec with cnt := 0#16, cmp := 0xFFFF#16, cmf := true } := by decide
theorem test_service : serviceTurn { vec with cmf := true, ms := 0xFFFFFFFF#32 } = { vec with ms := 0#32 } := by decide
theorem test_service_masked :
    serviceTurn { vec with cmf := true, gie := false } = { vec with cmf := true, gie := false } ∧
    serviceTurn { vec with cmf := true, cmie := false } = { vec with cmf := true, cmie := false } ∧
    serviceTurn vec = vec := by decide
theorem test_critical_section : hostTurn .restore (hostTurn .suspend vec) = vec := by decide

/-! ### The conversions, from the vectors of 95 §2.1 -/

theorem test_valid_configurations :
    [(16000000, 1), (16000000, 8), (16000000, 64), (16000000, 256), (16000000, 1024), (16000000, 16), (8000000, 8),
      (20000000, 64), (12000000, 8), (128000000, 1), (16500000, 64), (500000, 1)].map
        (fun c => validConfig ⟨c.1, c.2, prescaleSet, 0⟩) =
      [true, true, true, false, false, false, true, false, false, false, false, false] := by decide

/-- 93 §3, 40 R107: the set is an argument, so V2 follows it; a divisor without a clock-select code is not valid. -/
theorem test_valid_prescale_set :
    [(64, [64]), (8, [64]), (8, [64, 8]), (16, [16])].map (fun c => validConfig ⟨16000000, c.1, c.2, 0⟩) =
      [true, false, true, false] := by decide

/-- 40 R107: 95 §2.1's configuration refused by V4 has no run, whatever the run was to be. -/
theorem test_invalid_configuration :
    configure ⟨16000000, 256, prescaleSet, 0⟩ (fun c => stepWith c vec) = .refused .invalidConfiguration := by rfl

theorem test_convert_large :
    [999, 1000, 262140].map (scaleToTicks ref.clock) = [249, 250, 65535] ∧
    convert ref.clock .usToTicks 262141 = .error (.durationOutOfRange 262141) ∧ convert ref.clock .ticksToUs 249 = .ok 996 ∧
    convert ref.clock .msToTicks 262 = .ok 65500 ∧ convert ref.clock .msToTicks 4294968 = .error (.durationOutOfRange 4294968) ∧
    convert ref.clock .ticksToMs 65535 = .ok 262 ∧ convert ref.clock .ticksToUs 65536 = .error (.durationOutOfRange 65536) :=
  ⟨rfl, rfl, rfl, rfl, rfl, rfl, rfl⟩

theorem test_convert_small :
    convert small8.clock .usToTicks 32767 = .ok 65534 ∧ convert small8.clock .ticksToUs 1999 = .ok 999 ∧
    convert small8.clock .msToTicks 33 = .error (.durationOutOfRange 33) ∧ convert small8.clock .ticksToMs 65535 = .ok 32 :=
  ⟨rfl, rfl, rfl, rfl⟩

/-! ### The procedures, from the vectors of 95 §2.4 and §2.5 -/

theorem test_init :
    issued ref (List.replicate 5 .fg) (calling .init State.reset) =
      [0x80000008000000F9#64, 0x8000001000000001#64, 0x8000000C00000001#64, 0x8000000000000003#64] ∧
    ∃ t, foregroundRun ref 5 (calling .init State.reset) = .next t ∧
      t.registers = ⟨3#3, 0#16, 249#16, true, false, 0#32⟩ ∧ t.initDone = true := ⟨rfl, _, rfl, rfl, rfl⟩

theorem test_init_twice :
    foregroundRun ref 1 (calling .init vec) = .next (vec.raise .alreadyInitialized) := by rfl

theorem test_disable :
    foregroundRun ref 3 (calling .disable vec) = .next { vec with cmie := false, completion := .written } := by rfl

/-- The interleaving of 95 §2.4 in `enable()`: a match between its two writes is serviced after it. -/
theorem test_enable_interleaved :
    ∃ t, runTurns ref [.fg, .fg, .tmr, .fg, .isr]
        (calling .enable { vec with cmie := false, cnt := 249#16, ms := 7#32, psc := 63 }) = .next t ∧
      t.registers = ⟨3#3, 0#16, 249#16, true, false, 8#32⟩ := ⟨_, rfl, rfl⟩

/-- 95 §2.5, the row `MS` = 4294967, `CNT` = 249, and the row of the last `MS` with `CNT` = 125. -/
theorem test_microseconds :
    composeMicros 4294967#32 (scaleToUs ref.clock 249) = 700#32 ∧
    composeMicros 0xFFFFFFFF#32 (scaleToUs ref.clock 125) = 4294966796#32 := by decide

/-- The first torn read of 95 §2.5: the match falls between the two reads. -/
theorem test_torn_read :
    ∃ t, runTurns ref [.fg, .tmr, .isr, .fg, .fg, .fg]
        { vec with cnt := 249#16, psc := 63, frame := .microsMsThenCnt } = .next t ∧
      t.returned = [.microsecondsNow 5000#32] := ⟨_, rfl, rfl⟩

/-! ### The assembler, from 30 §6 -/

theorem test_assemble :
    assemble prescaleSet ["; init()", "wr CMP, 249        ; 1 ms", "clear_flags", "wr IER, 0x1", "set_prescaler 64"] =
      some [0x80000008000000F9#64, 0x8000001000000001#64, 0x8000000C00000001#64, 0x8000000000000003#64] := by decide

theorem test_assemble_errors :
    ["set_prescaler 16", "set_compare_target 65536", "wr CMP 249", "rd XYZ", "wr IER, 4294967296"].map (assembleLine prescaleSet) =
      [.bad, .bad, .bad, .bad, .bad] := by decide

/-- 30 R78 with another `PRESCALE_SET`. -/
theorem test_assemble_set :
    assembleLine [64] "set_prescaler 8" = .bad ∧ assembleLine [64] "set_prescaler 64" = .txn (.wrCtrl 3#32) := by decide

/-! ### The end of a run (70 R273) -/

/-- A run of `rd CNT` and then `milliseconds_now()` ends at the second read, with the value of the call; before it, the
run has no end. -/
theorem test_observation_point :
    runEnd ref [.fg, .tmr, .fg, .fg, .isr] { vec with program := [.txn 0x0000000400000000#64, .call .millisecondsNow] } =
      some (.observed vec.registers [.millisecondsNow 5#32]) ∧
    goodEnd ref [.fg, .tmr, .fg] { vec with program := [.txn 0x0000000400000000#64, .call .millisecondsNow] } = false :=
  ⟨rfl, rfl⟩

/-- Program P5 of 95 §3 ends at its fault. -/
theorem test_faulted_end :
    runEnd ref [.fg, .tmr] { vec with program := [.txn 0x8000000400000000#64, .txn 0x0000000400000000#64] } =
      some (.faulted [.readOnlyWrite 0x04#8]) := by rfl

/-- A conversion out of range after the last transaction: the run has no end at the transaction, and ends at the fault
(70 R273, 93 §2). The same conversion in range leaves a good end. -/
theorem test_conversion_after_the_last_transaction :
    runEnd ref [.fg] { vec with program := [.txn 0x0000000400000000#64, .convert .usToTicks 262141#32] } = none ∧
    runEnd ref [.fg, .tmr, .fg] { vec with program := [.txn 0x0000000400000000#64, .convert .usToTicks 262141#32] } =
      some (.faulted [.durationOutOfRange 262141]) ∧
    goodEnd ref [.fg, .tmr, .fg] { vec with program := [.txn 0x0000000400000000#64, .convert .usToTicks 262140#32] } = true :=
  ⟨rfl, rfl, rfl⟩

/-! ### The step -/

/-- The host's placing of a word: the next step runs it (00 §3, 41 §1). -/
theorem test_fetch_word :
    step (State.reset.withFetchWord 64 0x80000008000000F9) =
      .next { State.reset with cmp := 249#16, completion := .written } := by rfl

/-! ### A case that meets the hypotheses, for each statement that has any -/

theorem witness_EncodeInvertsDecode : decode 0x8000001400000007#64 = .ok (.wrMs 7#32) := by rfl

/-- One descriptor for each branch, at the edges of the ranges. -/
theorem witness_DecodeChecksInOrder :
    ((0x0000010000000000#64).extractLsb' 40 23 ≠ 0#23) ∧ ((0x4000000000000000#64).extractLsb' 40 23 ≠ 0#23) ∧
    ((0x0000000400000001#64).getLsbD 63 = false ∧ (0x0000000400000001#64).extractLsb' 0 32 ≠ 0#32) ∧
    ((0x0000001500000000#64).extractLsb' 32 8).toNat % 4 ≠ 0 ∧ 0x14 < ((0x0000001800000000#64).extractLsb' 32 8).toNat ∧
    (((0x8000001400000001#64).extractLsb' 40 23 = 0#23 ∧ (0x8000001400000001#64).getLsbD 63 = true) ∧
      ((0x8000001400000001#64).extractLsb' 32 8).toNat % 4 = 0 ∧ ¬ 0x14 < ((0x8000001400000001#64).extractLsb' 32 8).toNat) := by
  decide

theorem witness_PseudoInstructionsExpand :
    (1024 ∈ prescaleSet ∧ divisor 5#3 = some 1024 ∧ 5#3 ≠ 0#3) ∧ (1 ∈ prescaleSet ∧ divisor 1#3 = some 1 ∧ 1#3 ≠ 0#3) ∧
    16 ∉ prescaleSet ∧ 8 ∉ [64] ∧ ¬ 0xFFFF > 0xFFFF ∧ 0x10000 > 0xFFFF := by decide

theorem witness_SerialisationRoundTrips :
    (descriptorBytes 0x80000008000000F9#64)[0]? = some 0xF9#8 ∧
    (descriptorBytes 0x80000008000000F9#64)[7]? = some 0x80#8 ∧
    (wordBytes 0x12345678#32)[0]? = some 0x78#8 ∧ (wordBytes 0x12345678#32)[3]? = some 0x12#8 := by decide

theorem witness_WriteCtrlSelectsTheClock :
    (8#32).extractLsb' 3 29 ≠ 0#29 ∧ ((6#32).extractLsb' 3 29 = 0#29 ∧ 5 < ((6#32).extractLsb' 0 3).toNat) ∧
    (3#32).extractLsb' 0 3 = vec.cs ∧ ((5#32).extractLsb' 3 29 = 0#29 ∧ ¬ 5 < ((5#32).extractLsb' 0 3).toNat ∧
      (5#32).extractLsb' 0 3 ≠ vec.cs) := by decide

theorem witness_CtrlReservedBits : (8#32).extractLsb' 3 29 ≠ 0#29 ∧ (0x80000000#32).extractLsb' 3 29 ≠ 0#29 := by decide

theorem witness_TargetAndEnableWrites :
    (0x10000#32).extractLsb' 16 16 ≠ 0#16 ∧ (0xFFFF#32).extractLsb' 16 16 = 0#16 ∧
    (2#32).extractLsb' 1 31 ≠ 0#31 ∧ (1#32).extractLsb' 1 31 = 0#31 := by decide

theorem witness_InterruptEnableBit :
    (2#32).extractLsb' 1 31 ≠ 0#31 ∧ (0x80000000#32).extractLsb' 1 31 ≠ 0#31 ∧ vec.cmie = true ∧ State.reset.cmie = false ∧
    (calling .isEnabled vec).calls .isEnabled [] ∧ (calling .isEnabled vec).initDone = true :=
  ⟨by decide, by decide, rfl, rfl, ⟨rfl, rfl, rfl⟩, rfl⟩

theorem witness_WriteIfrClearsTheFlag :
    (2#32).extractLsb' 1 31 ≠ 0#31 ∧ ((1#32).extractLsb' 1 31 = 0#31 ∧ (1#32).getLsbD 0 = true) ∧
    ((0#32).extractLsb' 1 31 = 0#31 ∧ (0#32).getLsbD 0 = false) ∧
    exec (.wrIfr 1#32) { vec with cmf := true } = .next { vec with completion := .written } :=
  ⟨by decide, by decide, by decide, rfl⟩

theorem witness_TransactionsKeepTheFrame :
    exec (.wrCmp 100#32) vec = .next { vec with cmp := 100#16, completion := .written } ∧
    (∀ d, Instr.wrCmp 100#32 ≠ .wrCtrl d) ∧ (∀ d, Instr.wrCmp 100#32 ≠ .wrIer d) ∧ (∀ d, Instr.wrCmp 100#32 ≠ .wrIfr d) ∧
    exec .rdMs vec = .next { vec with completion := .rdata 5#32 } ∧ (∀ d, Instr.rdMs ≠ .wrCmp d) :=
  ⟨rfl, nofun, nofun, nofun, rfl, nofun⟩

theorem witness_OnlyIllFormedWritesFault :
    ((∀ d, Instr.wrCtrl 5#32 ≠ .wrCnt d) ∧ (∀ d, Instr.wrCtrl 5#32 ≠ .wrMs d) ∧ (Instr.wrCtrl 5#32).WellFormed) ∧
    ((∀ d, Instr.wrCtrl 6#32 ≠ .wrCnt d) ∧ (∀ d, Instr.wrCtrl 6#32 ≠ .wrMs d) ∧ ¬ (Instr.wrCtrl 6#32).WellFormed) :=
  ⟨⟨nofun, nofun, by decide⟩, ⟨nofun, nofun, by decide⟩⟩

/-- An address at each edge of the three clauses. -/
theorem witness_BusAddressSelectsTheOffset :
    Reg.ofOffset 0x00#8 = some .ctrl ∧ Reg.ofOffset 0x14#8 = some .ms ∧
    ((0x15#8).toNat % 4 ≠ 0 ∨ 0x14 < (0x15#8).toNat) ∧ ((0x01#8).toNat % 4 ≠ 0 ∨ 0x14 < (0x01#8).toNat) ∧
    ((0xFF#8).toNat % 4 ≠ 0 ∨ 0x14 < (0xFF#8).toNat) ∧
    (0x0FFF < ref.clock.timerBase ∨ ref.clock.timerBase + 256 ≤ 0x0FFF) ∧ (0x1100 < ref.clock.timerBase ∨ ref.clock.timerBase + 256 ≤ 0x1100) := by
  decide

/-- `FG`'s turn, with `rd MS` next. -/
def fetching : State := { vec with turns := [.fg, .tmr], program := [.txn 0x0000001400000000#64, .call .enable] }

theorem witness_StepRunsTheDecodedTransaction :
    fetching.turns = [.fg, .tmr] ∧ fetching.faults = [] ∧ fetching.frame = .idle ∧
    fetching.program = [.txn 0x0000001400000000#64, .call .enable] ∧ decode 0x0000001400000000#64 = .ok .rdMs :=
  ⟨rfl, rfl, rfl, rfl, rfl⟩

theorem witness_StepKeepsTheStateLegal :
    fetching.legal = true ∧
    step fetching = .next { vec with turns := [.tmr], program := [.call .enable], completion := .rdata 5#32 } :=
  ⟨by decide, rfl⟩

theorem witness_LegalMachineNeverStops :
    validConfig ⟨16000000, 256, prescaleSet, 0⟩ = false ∧ fetching.legal = true ∧ fetching.programInWindow ref.clock = true ∧
    { vec with program := [.memRead 0x10FF] }.programInWindow ref.clock = true := by decide

/-- A conversion and step 1 of `init()` are turns of `FG` without a transaction. -/
theorem witness_RegistersRestUntilForegroundActs :
    CleanStart ref.clock { State.reset with program := [.convert .usToTicks 8#32, .call .init] } ∧
    issued ref [.fg, .tmr, .isr, .host (.setGie true), .fg]
      { State.reset with program := [.convert .usToTicks 8#32, .call .init] } = [] ∧
    runTurns ref [.fg, .tmr, .isr, .host (.setGie true), .fg]
        { State.reset with program := [.convert .usToTicks 8#32, .call .init] } =
      .next { State.reset with
        gie := true, initDone := true, frame := .initCompare, returned := [.converted .usToTicks 8 2] } ∧
    (∀ x ∈ [Turn.tmr, .isr, .host (.setGie true)], x ≠ .fg) :=
  ⟨⟨by decide, rfl⟩, rfl, rfl, by decide⟩

/-- A valid configuration of each tier, for the statements on the conversions: `MillisecondIsAnExactPeriod`,
`SubMillisecondTermIsBelowOneMillisecond` and `ConversionsAreTotalAndPure`. -/
theorem witness_valid_configuration :
    validConfig ref.clock = true ∧ tier ref.clock = .large ∧ validConfig small8.clock = true ∧ tier small8.clock = .small := by decide

theorem witness_SubMillisecondTermIsBelowOneMillisecond : 249 ≤ tpm ref.clock - 1 ∧ 1999 ≤ tpm small8.clock - 1 := by decide

theorem witness_TicksRoundTrip : validConfig ref.clock = true ∧ validConfig small8.clock = true ∧ 65535 ≤ 65535 := by decide

theorem witness_MicrosecondsRoundTrip : 262140 ≤ maxUs ref.clock ∧ 32767 ≤ maxUs small8.clock := by decide

theorem witness_ConversionsOnTheirDomains :
    (3 ≤ 262140 ∧ 262140 ≤ maxUs ref.clock) ∧ ¬ 262141 ≤ maxUs ref.clock ∧ (1 ≤ 65535 ∧ ¬ 65536 ≤ 65535) ∧
    (262 * 1000 ≤ maxUs ref.clock ∧ ¬ 263 * 1000 ≤ maxUs ref.clock) := by decide

theorem witness_EqualTierIsUnobservable : equal8.clock.prescale = cpuUs equal8.clock ∧ 0 < cpuUs equal8.clock := by decide

theorem witness_ConversionsAreTotalAndPure :
    convert ref.clock .usToTicks 262140 = .ok 65535 ∧ convert ref.clock .ticksToUs 65535 = .ok 262140 ∧
    convert ref.clock .msToTicks 262 = .ok 65500 ∧ convert ref.clock .ticksToMs 65535 = .ok 262 ∧
    { vec with program := [.convert .usToTicks 1000#32] }.faults = [] ∧
    { vec with program := [.convert .usToTicks 1000#32] }.frame = .idle := ⟨rfl, rfl, rfl, rfl, rfl, rfl⟩

theorem witness_InitProgramsTheTimer :
    csCode ref.clock = some 3#3 ∧ (calling .init State.reset).calls .init [] ∧
    (calling .init State.reset).initDone = false ∧ (calling .init State.reset).cs ≠ 3#3 :=
  ⟨by decide, ⟨rfl, rfl, rfl⟩, rfl, by decide⟩

theorem witness_EnableAndDisableClearTheFlag :
    (calling .enable vec).calls (if true then .enable else .disable) [] ∧
    (calling .disable vec).calls (if false then .enable else .disable) [] ∧ (calling .enable vec).initDone = true :=
  ⟨⟨rfl, rfl, rfl⟩, ⟨rfl, rfl, rfl⟩, rfl⟩

theorem witness_IsEnabledReportsTheBit :
    (calling .isEnabled vec).calls .isEnabled [] ∧ List.count Turn.fg [.fg, .tmr, .fg, .host (.setGie false), .fg] = 3 ∧
    runTurns ref [.fg, .tmr, .fg, .host (.setGie false), .fg] (calling .isEnabled vec) =
      .next { vec with psc := 1, gie := false, completion := .rdata 1#32, returned := [.isEnabled true] } :=
  ⟨⟨rfl, rfl, rfl⟩, by decide, rfl⟩

theorem witness_MisuseFaultsBeforeAnyTransaction :
    ((calling .enable State.reset).calls .enable [] ∧
      (calling .enable State.reset).initDone = decide (Proc.enable = Proc.init)) ∧
    ((calling .init vec).calls .init [] ∧ (calling .init vec).initDone = decide (Proc.init = Proc.init)) :=
  ⟨⟨⟨rfl, rfl, rfl⟩, rfl⟩, ⟨⟨rfl, rfl, rfl⟩, rfl⟩⟩

/-- A match is pending while the interrupt is disabled, and another comes. -/
theorem witness_DisabledAccumulatorStandsStill :
    { vec with cmie := false, psc := 63, cnt := 249#16 }.cmie = false ∧ (∀ x ∈ [Turn.tmr, .isr], x ≠ .fg) ∧
    runTurns ref [.tmr, .isr] { vec with cmie := false, psc := 63, cnt := 249#16 } =
      .next { vec with cmie := false, psc := 0, cnt := 0#16, cmf := true } :=
  ⟨rfl, by decide, rfl⟩

/-- The same while the foreground reads the accumulator: every state of the run has the interrupt disabled. -/
theorem witness_DisabledAccumulatorStandsStill_reading :
    (∀ (k : Nat) (u : State), k < [Turn.fg, .tmr, .fg, .isr, .fg].length →
      runTurns ref ([Turn.fg, .tmr, .fg, .isr, .fg].take k) (calling .millisecondsNow { vec with cmie := false, cmf := true }) =
        .next u → u.cmie = false) ∧
    runTurns ref [.fg, .tmr, .fg, .isr, .fg] (calling .millisecondsNow { vec with cmie := false, cmf := true }) =
      .next { vec with
        cmie := false, cmf := true, psc := 1, completion := .rdata 5#32, returned := [.millisecondsNow 5#32] } := by
  refine ⟨fun k u hk h => ?_, rfl⟩
  have hk : k < 5 := hk
  interval_cases k <;> cases h <;> rfl

theorem witness_TimerStepsExactlyWhileClocked :
    State.reset.cs = 0#3 ∧ vec.cs ≠ 0#3 ∧ vec.legalClock = true := by decide

theorem witness_InputClockEdge :
    ({ vec with psc := 63 }.cs ≠ 0#3 ∧ divisor { vec with psc := 63 }.cs = some 64 ∧ { vec with psc := 63 }.psc < 64) ∧
    ({ vec with cs := 1#3 }.cs ≠ 0#3 ∧ divisor { vec with cs := 1#3 }.cs = some 1 ∧ { vec with cs := 1#3 }.psc < 1) := by decide

/-- A write of the clock select that changes the divisor, for the third clause of the edge's statement. -/
theorem witness_InputClockEdge_phase :
    ∃ s, exec (.wrCtrl 3#32) State.reset = .next s ∧ s.cs ≠ State.reset.cs ∧ s.cs ≠ 0#3 ∧ divisor s.cs = some 64 :=
  ⟨_, rfl, by decide, by decide, by decide⟩

theorem witness_CounterIsPeriodic : State.reset.cnt = 0#16 := by rfl

theorem witness_CounterStaysBelowTheTarget :
    takeTurn ref .tmr { vec with psc := 63, cnt := 249#16 } = .next { vec with psc := 0, cnt := 0#16, cmf := true } ∧
    { vec with cnt := 249#16 }.cnt.toNat ≤ vec.cmp.toNat := ⟨rfl, by decide⟩

theorem witness_EdgesRefineTicks : vec.cs ≠ 0#3 ∧ divisor vec.cs = some 64 ∧ { vec with psc := 63 }.psc < 64 := by decide

/-- A tick that matches, its service, and the tick after it. -/
def accRun : List Turn := [.tmr, .isr, .tmr]

/-- The state before `accRun`, in which the next tick matches. -/
def accStart : State := { vec with cs := 1#3, cnt := 249#16 }

theorem witness_runs : runTurns ref accRun accStart = .next { vec with cs := 1#3, cnt := 1#16, ms := 6#32 } := by rfl

theorem witness_AccHypothesisLosesNoMatch :
    Acc ref accRun accStart ∧ tally ref matchWeight accRun accStart = 1 ∧ tally ref serviceWeight accRun accStart = 1 := by
  refine ⟨⟨by decide, by unfold PromptService; decide⟩, by decide, by decide⟩

theorem witness_EveryMatchIsAccountedFor :
    tally ref mergedWeight [.tmr, .tmr] { vec with cs := 1#3, cmp := 0#16, cnt := 0#16 } = 1 ∧
    tally ref lostWeight [.fg] { vec with cmf := true, program := [.txn 0x8000001000000001#64] } = 1 := by decide

/-- With a service between step 1 and the read, and an edge after the read. -/
theorem witness_MillisecondsNowReadsTheAccumulator :
    (calling .millisecondsNow { vec with cmf := true }).calls .millisecondsNow [] ∧
    (calling .millisecondsNow { vec with cmf := true }).initDone = true ∧ (∀ x ∈ [Turn.isr] ++ [.tmr], x ≠ .fg) ∧
    runTurns ref (.fg :: [.isr]) (calling .millisecondsNow { vec with cmf := true }) =
      .next { vec with ms := 6#32, frame := .millisRead } ∧
    runTurns ref (.fg :: [.tmr] ++ [.fg]) { vec with ms := 6#32, frame := .millisRead } =
      .next { vec with
        ms := 6#32, psc := 1, completion := .rdata 6#32, returned := [.millisecondsNow 6#32] } :=
  ⟨⟨rfl, rfl, rfl⟩, rfl, by decide, rfl, rfl⟩

theorem witness_MicrosecondsNowComposesItsReads :
    (calling .microsecondsNow vec).calls .microsecondsNow [] ∧ (calling .microsecondsNow vec).initDone = true ∧
    { vec with cnt := 249#16 }.cnt.toNat ≤ tpm ref.clock - 1 :=
  ⟨⟨rfl, rfl, rfl⟩, rfl, by decide⟩

/-- The first torn read of 95 §2.5, the match and its service between the two reads: both clauses apply. -/
theorem witness_TornReadIsWithinOneMillisecond :
    { vec with cnt := 249#16, psc := 63 }.legal = true ∧ (249#16).toNat = tpm ref.clock - 1 ∧ (∀ x ∈ [Turn.tmr, .isr], x ≠ .fg) ∧
    runTurns ref [.tmr, .isr] { vec with cnt := 249#16, psc := 63 } = .next { vec with cnt := 0#16, psc := 0, ms := 6#32 } ∧
    tally ref tickWeight [.tmr, .isr] { vec with cnt := 249#16, psc := 63 } < tpm ref.clock ∧
    vec.ms.toNat + vec.cmf.toNat = 5 ∧ PromptService ref [.tmr, .isr] { vec with cnt := 249#16, psc := 63 } ∧
    vec.cmf = false :=
  ⟨by decide, by decide, by decide, rfl, by decide, by decide, by unfold PromptService; decide, rfl⟩

/-- The interleaved clause: a match and its service between the reads, in whichever order the call draws. -/
theorem witness_MicrosecondsNowComposesItsReads_interleaved :
    (∀ x ∈ ([] : List Turn) ++ [.host (.setGie true)] ++ [.tmr, .isr] ++ [] ++ [.isr], x ≠ .fg) ∧
    ∃ s1 s2 t,
      runTurns ref (.fg :: [] ++ .fg :: [.host (.setGie true)])
        (calling .microsecondsNow { vec with cnt := 249#16, psc := 63 }) = .next s1 ∧
      runTurns ref (.fg :: [.tmr, .isr]) s1 = .next s2 ∧
      runTurns ref (.fg :: [] ++ .fg :: [.isr] ++ [.fg]) s2 = .next t := by
  refine ⟨by decide, ?_⟩
  cases h : Config.freeOrder 0
  · refine ⟨{ vec with cnt := 249#16, psc := 63, frame := .microsMsThenCnt, draws := 1 }, _, _, ?_, rfl, rfl⟩
    simp [runTurns, takeTurn, foregroundTurn, startRequest, checkInit, procStep, calling, vec, State.reset, hostTurn,
      Proc.secondStep, h]
  · refine ⟨{ vec with cnt := 249#16, psc := 63, frame := .microsCntThenMs, draws := 1 }, _, _, ?_, rfl, rfl⟩
    simp [runTurns, takeTurn, foregroundTurn, startRequest, checkInit, procStep, calling, vec, State.reset, hostTurn,
      Proc.secondStep, h]

theorem witness_ProceduresAreBounded :
    takeTurn ref .fg { vec with frame := .microsMsThenCnt } =
      .next { vec with frame := .microsCntAfter 5#32, completion := .rdata 5#32 } ∧
    takeTurn ref .isr vec = .next vec := ⟨rfl, rfl⟩

theorem witness_RegistersAreWrittenOnlyByTheirSteps :
    takeTurn ref .fg { vec with program := [.txn 0x8000000800000064#64] } =
      .next { vec with cmp := 100#16, completion := .written } ∧
    takeTurn ref .fg vec = .next vec ∧
    takeTurn ref .tmr { vec with psc := 63, cnt := 249#16 } = .next { vec with psc := 0, cnt := 0#16, cmf := true } ∧
    takeTurn ref .isr { vec with cmf := true } = .next { vec with ms := 6#32 } ∧
    takeTurn ref (.host (.setGie false)) vec = .next { vec with gie := false } := ⟨rfl, rfl, rfl, rfl, rfl⟩

/-- For its last part: a turn without a transaction, and one whose transaction completes the same on other registers. -/
theorem witness_RegistersAreWrittenOnlyByTheirSteps_reads :
    (foregroundDescriptor ref (calling .enable vec) = none ∧
      takeTurn ref .fg (calling .enable vec) = .next { vec with frame := .enableFlags }) ∧
    takeTurn ref .fg { vec with frame := .millisRead } =
      .next { vec with frame := .millisReturn 5#32, completion := .rdata 5#32 } ∧
    takeTurn ref .fg ({ vec with frame := .millisRead }.withRegisters ⟨0#3, 7#16, 9#16, false, true, 5#32⟩) =
      .next ({ vec with frame := .millisReturn 5#32, completion := .rdata 5#32 }.withRegisters
        ⟨0#3, 7#16, 9#16, false, true, 5#32⟩) := ⟨⟨rfl, rfl⟩, rfl, rfl⟩

theorem witness_FaultIsRecordedAndNothingElse : vec.faults.Nodup := by decide

theorem witness_ForegroundFaultIsPrecise :
    takeTurn ref .fg { vec with program := [.txn 0x8000000400000000#64] } = .next (vec.raise (.readOnlyWrite 0x04#8)) ∧
    (vec.raise (.readOnlyWrite 0x04#8)).faults ≠ vec.faults ∧
    goodEnd ref [.fg] { vec with program := [.txn 0x0000000400000000#64, .convert .usToTicks 8#32] } = true ∧
    runTurns ref ([.fg] ++ [.fg, .tmr]) { vec with program := [.txn 0x0000000400000000#64, .convert .usToTicks 8#32] } =
      .next { vec with psc := 1, completion := .rdata 100#32, returned := [.converted .usToTicks 8 2] } :=
  ⟨rfl, by decide, rfl, rfl⟩

/-- The end of program P5 of 95 §3: the foreground has faulted, the timer goes on. -/
theorem witness_FaultStopsOnlyTheForeground :
    (vec.raise (.readOnlyWrite 0x04#8)).faults ≠ [] ∧
    takeTurn ref .fg (vec.raise (.readOnlyWrite 0x04#8)) = .next (vec.raise (.readOnlyWrite 0x04#8)) ∧
    takeTurn ref .tmr (vec.raise (.readOnlyWrite 0x04#8)) = .next { vec.raise (.readOnlyWrite 0x04#8) with psc := 1 } :=
  ⟨by decide, rfl, rfl⟩

/-- A match comes and the interrupt is asked for inside the critical section. -/
theorem witness_HostOwnsTheInterruptEnable :
    (∀ a, Turn.tmr ≠ .host a) ∧ takeTurn ref .tmr vec = .next { vec with psc := 1 } ∧
    (∀ x ∈ [Turn.tmr, .isr], ∀ a, x ≠ .host a) ∧
    runTurns ref (.host .suspend :: ([.tmr, .isr] ++ [.host .restore])) { vec with cnt := 249#16, psc := 63 } =
      .next { vec with cnt := 0#16, psc := 0, cmf := true } :=
  ⟨nofun, rfl, by simp, rfl⟩

/-- The states of an infinite run in which every tick matches and every match is serviced. -/
def loopState (n : Nat) : State :=
  { State.reset with
    cs := 1#3, cmie := true, gie := true, cmf := decide (n % 2 = 1), ms := BitVec.ofNat 32 (n / 2) }

/-- Its turns: the timer and the service alternate. -/
def loopTurn (n : Nat) : Turn := if n % 2 = 0 then .tmr else .isr

theorem loop_run : InfiniteRun ref loopState loopTurn := by
  intro n
  rcases Nat.mod_two_eq_zero_or_one n with h | h
  · have h1 : (n + 1) % 2 = 1 := by omega
    have h2 : (n + 1) / 2 = n / 2 := by omega
    simp [loopState, loopTurn, h, h1, h2, takeTurn, clockEdge, divisor, State.reset, tick, compareMatch, flagAfterTick]
  · have h1 : (n + 1) % 2 = 0 := by omega
    have h2 : (n + 1) / 2 = n / 2 + 1 := by omega
    simp [loopState, loopTurn, h, h1, h2, takeTurn, serviceTurn, service, State.serviceEnabled, serviceTrigger, irqLevel,
      State.reset, BitVec.ofNat_add]

theorem loop_fair : WeaklyFair loopState loopTurn := by
  refine ⟨fun n _ k _ => ⟨2 * k, by omega, by simp [loopTurn]⟩, fun n _ => ⟨2 * n + 1, by omega, ?_⟩⟩
  have h : (2 * n + 1) % 2 = 1 := by omega
  simp [loopTurn, h]

theorem witness_FairRunServicesForever :
    InfiniteRun ref loopState loopTurn ∧ WeaklyFair loopState loopTurn ∧ (loopState 0).legalClock = true ∧
    (loopState 0).cs ≠ 0#3 ∧
    (∀ n, (loopState n).cs = (loopState 0).cs ∧ (loopState n).cmp = (loopState 0).cmp ∧ (loopState n).cmie = true ∧
      (loopState n).gie = true ∧ lostWeight (loopTurn n) (loopState n) (loopState (n + 1)) = 0) := by
  refine ⟨loop_run, loop_fair, by decide, by decide, fun n => ⟨rfl, rfl, rfl, rfl, ?_⟩⟩
  unfold lostWeight loopTurn
  split <;> simp

end Sys2Proof.Tests
end

section
/-! Laws of the bus transactions and of a turn of `FG`, of use to every statement about the registers: what each
write answers in every state, what a transaction leaves of the foreground, and that a turn of `FG` knows of the
registers only what its transaction completed with (10 R22). -/

namespace Sys2Proof.Machine

open Host (Outcome)

/-! ### What each transaction answers, in every state (41 R132 to R143) -/

/-- The read transaction of a register completes with its value, whichever register it is (41 R130). -/
theorem exec_readInstr (r : Reg) (s : State) : exec r.readInstr s = completeRead r s := by
  cases r <;> rfl

/-- `WR_CTRL` faults in every state, or selects the same clock in every state (41 R133). -/
theorem exec_wrCtrl_cases (data : Word) :
    (∃ f, ∀ s, exec (.wrCtrl data) s = .next (s.raise f)) ∨
    ∃ c d, ∀ s, exec (.wrCtrl data) s = .next ((s.selectClock c d).complete .written) := by
  by_cases hres : ctrlReserved data = 0#29
  · cases hdiv : divisor (ctrlField data) with
    | none => exact .inl ⟨_, fun s => by simp only [exec, execWrCtrl, hres, hdiv]; rfl⟩
    | some d => exact .inr ⟨_, d, fun s => by simp only [exec, execWrCtrl, hres, hdiv]; rfl⟩
  · exact .inl ⟨_, fun s => if_pos hres⟩

/-- `WR_CMP` faults in every state, or sets the same target in every state (41 R137). -/
theorem exec_wrCmp_cases (data : Word) :
    (∃ f, ∀ s, exec (.wrCmp data) s = .next (s.raise f)) ∨
    ∃ v, ∀ s : State, exec (.wrCmp data) s = .next ({ s with cmp := v }.complete .written) := by
  by_cases hres : cmpReserved data = 0#16
  · exact .inr ⟨_, fun s => if_neg (not_not.2 hres)⟩
  · exact .inl ⟨_, fun s => if_pos hres⟩

/-- `WR_IER` with a reserved bit set faults and does nothing else (10 R28, 41 R139). -/
theorem exec_wrIer_of_reserved {data : Word} (hres : bitReserved data ≠ 0#31) (s : State) :
    exec (.wrIer data) s = .next (s.raise (.reservedBits 0x0C#8 data)) := if_pos hres

/-- `WR_IER` faults in every state, or sets the same enable bit in every state (41 R139). -/
theorem exec_wrIer_cases (data : Word) :
    (∃ f, ∀ s, exec (.wrIer data) s = .next (s.raise f)) ∨
    ∃ b, ∀ s : State, exec (.wrIer data) s = .next ({ s with cmie := b }.complete .written) := by
  by_cases hres : bitReserved data = 0#31
  · exact .inr ⟨_, fun s => if_neg (not_not.2 hres)⟩
  · exact .inl ⟨_, exec_wrIer_of_reserved hres⟩

/-- `WR_IFR` faults in every state, or makes the same clear request in every state (41 R141). -/
theorem exec_wrIfr_cases (data : Word) :
    (∃ f, ∀ s, exec (.wrIfr data) s = .next (s.raise f)) ∨
    ∃ b, ∀ s : State,
      exec (.wrIfr data) s = .next ({ s with cmf := flagAfterClear s.cmf b }.complete .written) := by
  by_cases hres : bitReserved data = 0#31
  · exact .inr ⟨_, fun s => if_neg (not_not.2 hres)⟩
  · exact .inl ⟨_, fun s => if_pos hres⟩

/-! ### A transaction does not see the program -/

theorem selectClock_withProgram (s : State) (c : ClockCode) (d : Nat) (p : List Request) :
    { s with program := p }.selectClock c d = { s.selectClock c d with program := p } := by
  unfold State.selectClock
  split <;> rfl

theorem exec_withProgram {i : Instr} {s u : State} (h : exec i s = .next u) (p : List Request) :
    exec i { s with program := p } = .next { u with program := p } := by
  cases i with
  | rdCtrl | rdCnt | rdCmp | rdIer | rdIfr | rdMs | wrCnt _ | wrMs _ => cases h; rfl
  | wrCtrl d =>
    obtain ⟨f, hs⟩ | ⟨c, d, hs⟩ := exec_wrCtrl_cases d <;> rw [hs] at h ⊢ <;> cases h
    · rfl
    · rw [selectClock_withProgram]; rfl
  | wrCmp d => obtain ⟨f, hs⟩ | ⟨v, hs⟩ := exec_wrCmp_cases d <;> rw [hs] at h ⊢ <;> cases h <;> rfl
  | wrIer d => obtain ⟨f, hs⟩ | ⟨b, hs⟩ := exec_wrIer_cases d <;> rw [hs] at h ⊢ <;> cases h <;> rfl
  | wrIfr d => obtain ⟨f, hs⟩ | ⟨b, hs⟩ := exec_wrIfr_cases d <;> rw [hs] at h ⊢ <;> cases h <;> rfl

theorem transact_withProgram {T : Descriptor} {s u : State} (h : transact T s = .next u) (p : List Request) :
    transact T { s with program := p } = .next { u with program := p } := by
  unfold transact at h ⊢
  split at h
  · cases h; rfl
  · exact exec_withProgram h p

/-! ### What a transaction leaves of the foreground -/

/-- The fault record after an operation that completed so, where it was `faults` before (41 R130, 60 R232). -/
def Completion.faultsAfter (faults : List FaultRecord) : Completion → List FaultRecord
  | .faulted f => recordFault f faults
  | .nothing | .rdata _ | .written => faults

theorem busEffect_of_transact {T : Descriptor} {s u : State} (h : transact T s = .next u) : BusEffect s u := by
  obtain ⟨v, hv, he⟩ := transact_effect T s
  cases h.symm.trans hv
  exact he

/-- A transaction writes nothing of the foreground but its completion and the fault that the completion names. -/
theorem BusEffect.keeps_foreground {s u : State} (h : BusEffect s u) :
    u.frame = s.frame ∧ u.program = s.program ∧ u.returned = s.returned ∧ u.initDone = s.initDone ∧
    u.faults = u.completion.faultsAfter s.faults := by
  cases h <;> simp [Completion.faultsAfter]

/-! ### A turn of `FG`, by what it takes up -/

/-- Once it has faulted, `FG` issues nothing (60 R233). -/
theorem faults_of_foregroundDescriptor {cfg : ValidConfig} {s : State} {T : Descriptor}
    (hd : foregroundDescriptor cfg s = some T) : s.faults = [] := by
  by_contra hf
  simp [foregroundDescriptor, hf] at hd

theorem foregroundTurn_faulted (cfg : ValidConfig) {s : State} (hf : s.faults ≠ []) :
    foregroundTurn cfg s = .next s := if_pos hf

theorem foregroundTurn_running (cfg : ValidConfig) {s : State} (hf : s.faults = []) (hr : s.frame ≠ .idle) :
    foregroundTurn cfg s = procStep cfg s := by
  simp [foregroundTurn, hf, hr]

theorem foregroundTurn_over (cfg : ValidConfig) {s : State} (hf : s.faults = []) (hr : s.frame = .idle)
    (hp : s.program = []) : foregroundTurn cfg s = .next s := by
  simp [foregroundTurn, hf, hr, hp]

theorem foregroundTurn_start (cfg : ValidConfig) {s : State} {q : Request} {rest : List Request}
    (hf : s.faults = []) (hr : s.frame = .idle) (hp : s.program = q :: rest) :
    foregroundTurn cfg s = startRequest cfg q { s with program := rest } := by
  simp [foregroundTurn, hf, hr, hp]

/-- The first turn of a call of an initialised driver's procedure passes its check of `INIT` (42 R162 to R164, 44
R202, R203). -/
theorem foregroundTurn_call (cfg : ValidConfig) {s : State} {p : Proc} {rest : List Request}
    (hc : s.calls p rest) (hp : p ≠ .init) (hi : s.initDone = true) :
    foregroundTurn cfg s = .next { s with program := rest, frame := p.secondStep } := by
  obtain ⟨hf, hr, hprog⟩ := hc
  simp [foregroundTurn_start cfg hf hr hprog, startRequest, checkInit, hp, hi]

/-- The descriptors of a run whose first turn is `FG`'s: those of the turn, then those of the rest. -/
theorem issued_fg_cons {cfg : ValidConfig} {s u : State} (ts : List Turn)
    (h : foregroundTurn cfg s = .next u) :
    issued cfg (.fg :: ts) s = (foregroundDescriptor cfg s).toList ++ issued cfg ts u := by
  simp [issued, takeTurn, h]

/-! ### A turn of `FG` with a transaction -/

/-- The turn of `FG` in `s` is the transaction `T` and nothing else of the bus: `FG` goes on with the program `p`, in
the frame that `next` gives for what the transaction completed with. -/
def GoesOnBy (cfg : ValidConfig) (T : Descriptor) (p : List Request) (next : Completion → Frame) (s : State) : Prop :=
  ∃ u, transact T s = .next u ∧ foregroundTurn cfg s = .next { u with program := p, frame := next u.completion }

/-- The frame after a procedure's write step: `f` if the write completed, else where it was (60 R233). -/
def Frame.afterWritten (stay f : Frame) : Completion → Frame
  | .written => f
  | .nothing | .rdata _ | .faulted _ => stay

/-- The frame after a procedure's read step: the one `k` makes of the value read, else where it was. -/
def Frame.afterRdata (stay : Frame) (k : Word → Frame) : Completion → Frame
  | .rdata v => k v
  | .nothing | .written | .faulted _ => stay

theorem afterWrite_complete (u : State) (c : Completion) (f : Frame) :
    afterWrite (.next (u.complete c)) f = .next { u.complete c with frame := u.frame.afterWritten f c } := by
  cases c <;> rfl

theorem afterRead_complete (u : State) (c : Completion) (k : Word → Frame) :
    afterRead (.next (u.complete c)) k = .next { u.complete c with frame := u.frame.afterRdata k c } := by
  cases c <;> rfl

theorem goesOnBy_writeStep {cfg : ValidConfig} {s : State} {off : Offset} {d : Word} {f : Frame}
    (hturn : foregroundTurn cfg s = writeStep cfg.clock off d f s) :
    GoesOnBy cfg (writeDescriptor off d) s.program (s.frame.afterWritten f) s := by
  obtain ⟨u, hu, he⟩ := transact_effect (writeDescriptor off d) s
  obtain ⟨hframe, hprogram, -⟩ := he.keeps_foreground
  refine ⟨u, hu, ?_⟩
  rw [hturn, writeStep, memWrite_busAddress, hu, ← hframe, ← hprogram]
  exact afterWrite_complete u u.completion f

theorem goesOnBy_readStep {cfg : ValidConfig} {s : State} {off : Offset} {k : Word → Frame}
    (hturn : foregroundTurn cfg s = readStep cfg.clock off k s) :
    GoesOnBy cfg (readDescriptor off) s.program (s.frame.afterRdata k) s := by
  obtain ⟨u, hu, he⟩ := transact_effect (readDescriptor off) s
  obtain ⟨hframe, hprogram, -⟩ := he.keeps_foreground
  refine ⟨u, hu, ?_⟩
  rw [hturn, readStep, memRead_busAddress, hu, ← hframe, ← hprogram]
  exact afterRead_complete u u.completion k

/-- A transaction of the program itself leaves the frame alone, whatever it completes with. -/
theorem goesOnBy_raw {cfg : ValidConfig} {s : State} {T : Descriptor} {p : List Request}
    (hturn : foregroundTurn cfg s = transact T { s with program := p }) :
    GoesOnBy cfg T p (fun _ => s.frame) s := by
  obtain ⟨u, hu, he⟩ := transact_effect T s
  obtain ⟨hframe, -⟩ := he.keeps_foreground
  exact ⟨u, hu, by rw [hturn, transact_withProgram hu, ← hframe]⟩

/-- A step of a procedure that issues a transaction is a write step or a read step, the same for every state in the
same frame (00 R12). -/
theorem procStep_of_descriptor {cfg : ValidConfig} {s : State} {T : Descriptor} (hr : s.frame ≠ .idle)
    (hd : foregroundDescriptor cfg s = some T) :
    (∃ off d f, T = writeDescriptor off d ∧
      ∀ s', s'.frame = s.frame → procStep cfg s' = writeStep cfg.clock off d f s') ∨
    ∃ off k, T = readDescriptor off ∧ ∀ s', s'.frame = s.frame → procStep cfg s' = readStep cfg.clock off k s' := by
  have hf := faults_of_foregroundDescriptor hd
  cases hfr : s.frame <;>
    simp only [foregroundDescriptor, hf, hfr, ne_eq, not_true_eq_false, if_false, Option.some.injEq,
      reduceCtorEq] at hd
  case idle => exact absurd hfr hr
  case initCompare | initFlags | initEnable | initClock | enableFlags | enableInterrupt | disableFlags
      | disableInterrupt =>
    exact .inl ⟨_, _, _, hd.symm, fun s' h => by rw [procStep, h]⟩
  case isEnabledRead | millisRead | microsMsThenCnt | microsCntAfter | microsCntThenMs | microsMsAfter =>
    exact .inr ⟨_, _, hd.symm, fun s' h => by rw [procStep, h]⟩

/-- A turn of `FG` that issues a transaction knows of the registers only what the transaction completed with (10
R22): the program and the frame it goes on with are the same functions whatever the registers hold. -/
theorem foregroundTurn_goesOnBy {cfg : ValidConfig} {s : State} {T : Descriptor}
    (hd : foregroundDescriptor cfg s = some T) : ∃ p next, ∀ r, GoesOnBy cfg T p next (s.withRegisters r) := by
  have hf := faults_of_foregroundDescriptor hd
  by_cases hr : s.frame = .idle
  · have hstart {q rest} (hp : s.program = q :: rest) (r : Registers) :=
      foregroundTurn_start cfg (s := s.withRegisters r) hf hr hp
    simp only [foregroundDescriptor, hf, hr, ne_eq, not_true_eq_false, if_false] at hd
    split at hd
    case h_1 rest hp =>
      cases hd
      exact ⟨rest, fun _ => s.frame, fun r => goesOnBy_raw (hstart hp r)⟩
    case h_2 addr rest hp =>
      obtain ⟨off, ho, rfl⟩ := Option.map_eq_some_iff.1 hd
      exact ⟨rest, fun _ => s.frame, fun r => goesOnBy_raw (by rw [hstart hp r, startRequest, memRead, ho])⟩
    case h_3 addr data rest hp =>
      obtain ⟨off, ho, rfl⟩ := Option.map_eq_some_iff.1 hd
      exact ⟨rest, fun _ => s.frame, fun r => goesOnBy_raw (by rw [hstart hp r, startRequest, memWrite, ho])⟩
    case h_4 => cases hd
  · have hrun (r : Registers) := foregroundTurn_running cfg (s := s.withRegisters r) hf hr
    obtain ⟨off, d, f, rfl, hstep⟩ | ⟨off, k, rfl, hstep⟩ := procStep_of_descriptor hr hd
    · exact ⟨s.program, s.frame.afterWritten f, fun r => goesOnBy_writeStep ((hrun r).trans (hstep _ rfl))⟩
    · exact ⟨s.program, s.frame.afterRdata k, fun r => goesOnBy_readStep ((hrun r).trans (hstep _ rfl))⟩

/-! ### A turn of `FG` without a transaction -/

theorem checkInit_withRegisters {p : Proc} {s t : State} (h : checkInit p s = .next t) (r : Registers) :
    checkInit p (s.withRegisters r) = .next (t.withRegisters r) := by
  by_cases hp : p = .init <;> by_cases hi : s.initDone = true <;>
    simp only [checkInit, withRegisters_initDone, hp, hi, reduceIte] at h ⊢ <;> cases h <;> rfl

/-- A local step of a procedure is the same whatever the registers hold. -/
theorem procStep_withRegisters {cfg : ValidConfig} {s t : State} (hf : s.faults = [])
    (hd : foregroundDescriptor cfg s = none) (h : procStep cfg s = .next t) (r : Registers) :
    procStep cfg (s.withRegisters r) = .next (t.withRegisters r) := by
  cases hfr : s.frame <;>
    simp only [foregroundDescriptor, hf, hfr, ne_eq, not_true_eq_false, if_false, reduceCtorEq] at hd <;>
    simp only [procStep, hfr, withRegisters_frame, withRegisters_draws] at h ⊢
  case idle | isEnabledReturn | millisReturn | microsReturn => cases h; rfl
  case microsDraw => split at h <;> cases h <;> rfl
  case microsConvert m c => split at h <;> cases h <;> rfl

/-- The start of an operation that issues no transaction is the same whatever the registers hold. -/
theorem startRequest_withRegisters {cfg : ValidConfig} {q : Request} {s t : State} {rest : List Request}
    (hf : s.faults = []) (hr : s.frame = .idle) (hp : s.program = q :: rest)
    (hd : foregroundDescriptor cfg s = none)
    (h : startRequest cfg q { s with program := rest } = .next t) (r : Registers) :
    startRequest cfg q { s.withRegisters r with program := rest } = .next (t.withRegisters r) := by
  cases q with
  | txn T => simp [foregroundDescriptor, hf, hr, hp] at hd
  | memRead addr =>
    have ho : windowOffset cfg.clock addr = none := by simpa [foregroundDescriptor, hf, hr, hp] using hd
    simp [startRequest, memRead, ho] at h
  | memWrite addr d =>
    have ho : windowOffset cfg.clock addr = none := by simpa [foregroundDescriptor, hf, hr, hp] using hd
    simp [startRequest, memWrite, ho] at h
  | call p => exact checkInit_withRegisters h r
  | convert f x =>
    simp only [startRequest] at h ⊢
    split at h <;> cases h <;> rfl

/-- A turn of `FG` without a transaction does the same whatever the registers hold (10 R22). -/
theorem foregroundTurn_withRegisters {cfg : ValidConfig} {s t : State}
    (hd : foregroundDescriptor cfg s = none) (h : foregroundTurn cfg s = .next t) (r : Registers) :
    foregroundTurn cfg (s.withRegisters r) = .next (t.withRegisters r) := by
  by_cases hf : s.faults = []
  · by_cases hr : s.frame = .idle
    · cases hp : s.program with
      | nil =>
        rw [foregroundTurn_over cfg hf hr hp] at h
        cases h
        exact foregroundTurn_over cfg hf hr hp
      | cons q rest =>
        rw [foregroundTurn_start cfg hf hr hp] at h
        rw [foregroundTurn_start cfg (s := s.withRegisters r) hf hr hp]
        exact startRequest_withRegisters hf hr hp hd h r
    · rw [foregroundTurn_running cfg hf hr] at h
      rw [foregroundTurn_running cfg (s := s.withRegisters r) hf hr]
      exact procStep_withRegisters hf hd h r
  · rw [foregroundTurn_faulted cfg hf] at h
    cases h
    exact foregroundTurn_faulted cfg hf

end Sys2Proof.Machine
end

section
/-! O15: the interrupt enable bit (10 R28). -/

namespace Sys2Proof.Machine

/-- A one-bit field reads back in bit 0 (20 R54). -/
theorem bitWord_getLsbD_zero (b : Bool) : (bitWord b).getLsbD 0 = b := by cases b <;> rfl

/-- The reserved bits of a one-bit register read as 0 (10 R28, R29). -/
theorem bitWord_reserved (b : Bool) : (bitWord b).extractLsb' 1 31 = 0#31 := by cases b <;> decide

/-- The turn in which `is_enabled()` reads `IER` (42 R164 step 2). -/
theorem foregroundTurn_isEnabledRead (cfg : ValidConfig) {s : State} (hf : s.faults = [])
    (hr : s.frame = .isEnabledRead) :
    foregroundTurn cfg s =
      .next { s with completion := .rdata (bitWord s.cmie), frame := .isEnabledReturn (bitWord s.cmie) } := by
  rw [foregroundTurn_running cfg hf (by simp [hr]), procStep, hr]
  exact readStep_eq cfg.clock .ier .isEnabledReturn s

/-- The turn in which `is_enabled()` returns bit 0 of what it read (42 R164 step 3). -/
theorem foregroundTurn_isEnabledReturn (cfg : ValidConfig) {s : State} {v : Word} (hf : s.faults = [])
    (hr : s.frame = .isEnabledReturn v) :
    foregroundTurn cfg s = .next (s.giveBack (.isEnabled (v.getLsbD 0))) := by
  rw [foregroundTurn_running cfg hf (by simp [hr]), procStep, hr]

/-- An uninterrupted `is_enabled()` issues one read of `IER` and returns `CMIE` (10 R28, 42 R164). -/
theorem isEnabled_reports (cfg : ValidConfig) {s : State} {rest : List Request}
    (hc : s.calls .isEnabled rest) (hi : s.initDone = true) :
    issued cfg (List.replicate 3 .fg) s = [encode .rdIer] ∧
    ∃ t, foregroundRun cfg 3 s = .next t ∧ t.returned = .isEnabled s.cmie :: s.returned := by
  obtain ⟨hf, hr, hp⟩ := hc
  have hcall : foregroundTurn cfg s = .next { s with program := rest, frame := .isEnabledRead } :=
    foregroundTurn_call cfg ⟨hf, hr, hp⟩ (by decide) hi
  have hread := foregroundTurn_isEnabledRead cfg
    (s := { s with program := rest, frame := .isEnabledRead }) hf rfl
  have hreturn := foregroundTurn_isEnabledReturn cfg
    (s := { s with program := rest, completion := .rdata (bitWord s.cmie),
                   frame := .isEnabledReturn (bitWord s.cmie) }) hf rfl
  constructor
  · change issued cfg [.fg, .fg, .fg] s = _
    rw [issued_fg_cons _ hcall, issued_fg_cons _ hread, issued_fg_cons _ hreturn]
    simp [foregroundDescriptor, hf, hr, hp, issued, encode]
  · refine ⟨_, runTurns_cons.2 ⟨_, hcall, runTurns_cons.2 ⟨_, hread, runTurns_cons.2 ⟨_, hreturn, rfl⟩⟩⟩, ?_⟩
    exact congrArg (fun b => Returned.isEnabled b :: s.returned) (bitWord_getLsbD_zero s.cmie)

/-- Settles O15: the request from its definition, `is_enabled()` turn by turn, and `RD_IER` and `WR_IER` from their
rules. -/
theorem interruptEnableBit : Obligations.InterruptEnableBit := by
  intro data s
  refine ⟨fun h => ?_, fun h => ?_, fun cfg rest hc hi => isEnabled_reports cfg hc hi, ?_, fun hres => ?_⟩
  · simp [State.irq, irqLevel, h]
  · simp [State.irq, irqLevel, h]
  · exact ⟨_, _, exec_readInstr .ier s, rfl, bitWord_getLsbD_zero s.cmie, bitWord_reserved s.cmie⟩
  · exact ⟨_, exec_wrIer_of_reserved hres s, rfl, (mem_recordFault _ _ _).2 (.inl rfl), rfl⟩

end Sys2Proof.Machine
end

section
/-! O55: the registers are read and written only by their steps (10 R22). -/

namespace Sys2Proof.Machine

/-- Each register is read and written by the transaction that names it, and its read changes none (10 R22, 20 R56). -/
theorem transact_own_register (r : Reg) (data : Word) (s : State) :
    (∃ u, transact (readDescriptor r.offset) s = .next u ∧ u.completion = .rdata (s.readReg r) ∧
      u.registers = s.registers) ∧
    transact (writeDescriptor r.offset data) s = exec (r.writeInstr data) s :=
  ⟨⟨_, (transact_read r s).trans (exec_readInstr r s), rfl, rfl⟩, transact_write r data s⟩

/-- A transaction writes no register but its own, and `CNT` and `MS` not at all (10 R22). -/
theorem exec_writes_own_register {i : Instr} {s t : State} (h : exec i s = .next t) :
    (t.cs ≠ s.cs → ∃ d, i = .wrCtrl d) ∧ t.cnt = s.cnt ∧ (t.cmp ≠ s.cmp → ∃ d, i = .wrCmp d) ∧
    (t.cmie ≠ s.cmie → ∃ d, i = .wrIer d) ∧ (t.cmf ≠ s.cmf → ∃ d, i = .wrIfr d) ∧ t.ms = s.ms := by
  cases i with
  | rdCtrl | rdCnt | rdCmp | rdIer | rdIfr | rdMs | wrCnt _ | wrMs _ => cases h; simp
  | wrCtrl d => obtain ⟨f, hs⟩ | ⟨c, d, hs⟩ := exec_wrCtrl_cases d <;> rw [hs] at h <;> cases h <;> simp
  | wrCmp d => obtain ⟨f, hs⟩ | ⟨v, hs⟩ := exec_wrCmp_cases d <;> rw [hs] at h <;> cases h <;> simp
  | wrIer d => obtain ⟨f, hs⟩ | ⟨b, hs⟩ := exec_wrIer_cases d <;> rw [hs] at h <;> cases h <;> simp
  | wrIfr d => obtain ⟨f, hs⟩ | ⟨b, hs⟩ := exec_wrIfr_cases d <;> rw [hs] at h <;> cases h <;> simp

/-- A turn of `FG` without a transaction leaves the registers and the prescaler phase alone. -/
theorem foregroundTurn_keeps_registers {cfg : ValidConfig} {s t : State} (h : foregroundTurn cfg s = .next t)
    (hd : foregroundDescriptor cfg s = none) : t.registers = s.registers ∧ t.psc = s.psc := by
  cases foregroundTurn_effect h with
  | rest | compute | misuse => exact ⟨rfl, rfl⟩
  | issue _ _ _ _ hd' | advance _ _ _ _ _ hd' => simp [hd] at hd'

/-- A turn of `FG` with a transaction changes the registers and the prescaler phase as the transaction does. -/
theorem foregroundTurn_registers_of_transact {cfg : ValidConfig} {s t : State} {T : Descriptor}
    (h : foregroundTurn cfg s = .next t) (hd : foregroundDescriptor cfg s = some T) :
    ∃ u, transact T s = .next u ∧ t.registers = u.registers ∧ t.psc = u.psc := by
  obtain ⟨p, next, hgo⟩ := foregroundTurn_goesOnBy hd
  obtain ⟨u, hu, hturn⟩ := hgo s.registers
  cases h.symm.trans hturn
  exact ⟨u, hu, rfl, rfl⟩

/-- The timer writes `CNT` in a tick and `CMF` in a match, and no other register (43 R181, R182). -/
theorem clockEdge_registers {s t : State} (h : clockEdge s = .next t) :
    t.cs = s.cs ∧ t.cmp = s.cmp ∧ t.cmie = s.cmie ∧ t.ms = s.ms ∧
    (t.cnt ≠ s.cnt → s.edgeTicks = true) ∧ (t.cmf ≠ s.cmf → s.edgeMatches = true) := by
  obtain ⟨-, rfl⟩ | ⟨d, hcs, hdiv, ⟨hpsc, rfl⟩ | ⟨-, rfl⟩⟩ := clockEdge_cases h
  · simp
  · have hticks : s.edgeTicks = true := by simp [State.edgeTicks, hcs, hdiv, hpsc]
    obtain ⟨hm, ht⟩ | ⟨-, ht⟩ := tick_cases { s with psc := 0 }
    · have hmatches : s.edgeMatches = true := by
        simp only [State.edgeMatches, hticks, compareMatch, Bool.true_and, beq_iff_eq]
        exact hm
      simp [hticks, hmatches]
    · simp [ht, hticks]
  · simp

/-- A turn of the service writes `MS` and the flag it takes, if it takes one, and no other register (44 R200). -/
theorem serviceTurn_registers (s : State) :
    (serviceTurn s).psc = s.psc ∧ ((serviceTurn s).registers = s.registers ∨
      s.serviceEnabled = true ∧
      (serviceTurn s).registers = { s.registers with cmf := (serviceTurn s).cmf, ms := (serviceTurn s).ms }) := by
  obtain ⟨hg, hi, hf, ht⟩ | ⟨-, ht⟩ := serviceTurn_cases s <;> rw [ht]
  · exact ⟨rfl, .inr ⟨by simp [State.serviceEnabled, serviceTrigger, irqLevel, hg, hi, hf], rfl⟩⟩
  · exact ⟨rfl, .inl rfl⟩

/-- The host writes no register (60 R236). -/
theorem hostTurn_registers (a : HostAct) (s : State) :
    (hostTurn a s).registers = s.registers ∧ (hostTurn a s).psc = s.psc := by
  obtain ⟨g, l, ht⟩ := hostTurn_cases a s
  rw [ht]
  exact ⟨rfl, rfl⟩

/-- On other registers, a turn of `FG` with a transaction is the same for the foreground if the transaction
completes the same. -/
theorem foregroundTurn_sees_only_completion {cfg : ValidConfig} {s t : State} {T : Descriptor} (r : Registers)
    (h : foregroundTurn cfg s = .next t) (hd : foregroundDescriptor cfg s = some T) :
    ∃ u, foregroundTurn cfg (s.withRegisters r) = .next u ∧
      (u.completion = t.completion →
        u.frame = t.frame ∧ u.returned = t.returned ∧ u.faults = t.faults ∧ u.program = t.program ∧
          u.initDone = t.initDone) := by
  obtain ⟨p, next, hgo⟩ := foregroundTurn_goesOnBy hd
  obtain ⟨v, hv, hturn⟩ := hgo s.registers
  obtain ⟨u, hu, hturn'⟩ := hgo r
  cases h.symm.trans hturn
  obtain ⟨-, -, hvr, hvi, hvf⟩ := (busEffect_of_transact hv).keeps_foreground
  obtain ⟨-, -, hur, hui, huf⟩ := (busEffect_of_transact hu).keeps_foreground
  refine ⟨_, hturn', fun hc => ⟨congrArg next hc, hur.trans hvr.symm, ?_, rfl, hui.trans hvi.symm⟩⟩
  calc u.faults = u.completion.faultsAfter s.faults := huf
    _ = v.completion.faultsAfter s.faults := congrArg (Completion.faultsAfter s.faults) hc
    _ = v.faults := hvf.symm

/-- Settles O55: the transactions by their rules, then each agent's turn by what it can do. -/
theorem registersAreWrittenOnlyByTheirSteps : Obligations.RegistersAreWrittenOnlyByTheirSteps := by
  refine ⟨transact_own_register, fun i s t h => exec_writes_own_register h, fun cfg x s t h => ?_,
    fun cfg s t r h => ?_⟩
  · cases x with
    | fg =>
      cases hd : foregroundDescriptor cfg s with
      | none => exact foregroundTurn_keeps_registers h hd
      | some T => exact foregroundTurn_registers_of_transact h hd
    | tmr => exact clockEdge_registers h
    | isr => cases h; exact serviceTurn_registers s
    | host a => cases h; exact hostTurn_registers a s
  · cases hd : foregroundDescriptor cfg s with
    | none => exact foregroundTurn_withRegisters hd h r
    | some T => exact foregroundTurn_sees_only_completion r h hd

end Sys2Proof.Machine
end

section
/-! O33: the conversions are total, pure and floor (40 R110). -/

namespace Sys2Proof.Machine

/-! ### The scaling factor of a tier (40 R102, R103, R107) -/

/-- V5 of 40 R107: one millisecond is representable. -/
theorem thousand_le_maxUs {cfg : ClockConfig} (hv : validConfig cfg = true) : 1000 ≤ maxUs cfg := by
  simp only [validConfig, Bool.and_eq_true, decide_eq_true_eq] at hv
  exact hv.2

theorem maxUs_large {cfg : ClockConfig} (ht : tier cfg = .large) : maxUs cfg = 65535 * usPerTick cfg := by
  rw [maxUs, ht]

theorem maxUs_small {cfg : ClockConfig} (ht : tier cfg = .small) : maxUs cfg = 65535 / ticksPerUs cfg := by
  rw [maxUs, ht]

theorem scaleToTicks_large {cfg : ClockConfig} (ht : tier cfg = .large) (u : Nat) :
    scaleToTicks cfg u = u / usPerTick cfg := by
  rw [scaleToTicks, ht]

theorem scaleToTicks_small {cfg : ClockConfig} (ht : tier cfg = .small) (u : Nat) :
    scaleToTicks cfg u = u * ticksPerUs cfg := by
  rw [scaleToTicks, ht]

theorem scaleToUs_large {cfg : ClockConfig} (ht : tier cfg = .large) (t : Nat) :
    scaleToUs cfg t = t * usPerTick cfg := by
  rw [scaleToUs, ht]

theorem scaleToUs_small {cfg : ClockConfig} (ht : tier cfg = .small) (t : Nat) :
    scaleToUs cfg t = t / ticksPerUs cfg := by
  rw [scaleToUs, ht]

/-- A factor 0 would leave no span at all, against V5. -/
theorem usPerTick_pos {cfg : ClockConfig} (hv : validConfig cfg = true) (ht : tier cfg = .large) :
    0 < usPerTick cfg := by
  have hspan := thousand_le_maxUs hv
  rw [maxUs_large ht] at hspan
  omega

/-- A factor 0 would leave no span at all, against V5. -/
theorem ticksPerUs_pos {cfg : ClockConfig} (hv : validConfig cfg = true) (ht : tier cfg = .small) :
    0 < ticksPerUs cfg := by
  have hspan := thousand_le_maxUs hv
  rw [maxUs_small ht] at hspan
  by_contra hzero
  simp [Nat.eq_zero_of_not_pos hzero] at hspan

/-! ### What a conversion answers (40 R111 to R114) -/

/-- The largest operand of a conversion that it does not fault on. -/
def Conversion.bound (cfg : ClockConfig) : Conversion → Nat
  | .usToTicks => maxUs cfg
  | .ticksToUs | .ticksToMs => 65535
  | .msToTicks => maxUs cfg / 1000

/-- The number a conversion gives for an operand within its bound. -/
def Conversion.value (cfg : ClockConfig) (n : Nat) : Conversion → Nat
  | .usToTicks => scaleToTicks cfg n
  | .ticksToUs => scaleToUs cfg n
  | .msToTicks => scaleToTicks cfg (n * 1000)
  | .ticksToMs => scaleToUs cfg n / 1000

theorem convert_of_le_bound {cfg : ClockConfig} {f : Conversion} {n : Nat} (h : n ≤ f.bound cfg) :
    convert cfg f n = .ok (f.value cfg n) := by
  cases f with
  | usToTicks => exact if_neg (Nat.not_lt.2 h)
  | ticksToUs => exact if_neg (Nat.not_lt.2 h)
  | msToTicks =>
    have hspan : ¬ n * 1000 > maxUs cfg := Nat.not_lt.2 ((Nat.le_div_iff_mul_le (by decide)).1 h)
    simp [convert, msToTicks, usToTicks, hspan, Conversion.value]
  | ticksToMs =>
    have hspan : ¬ n > 65535 := Nat.not_lt.2 h
    simp [convert, ticksToMs, ticksToUs, hspan, Conversion.value]

theorem convert_of_bound_lt {cfg : ClockConfig} {f : Conversion} {n : Nat} (h : f.bound cfg < n) :
    convert cfg f n = .error (.durationOutOfRange n) := by
  cases f with
  | usToTicks => exact if_pos h
  | ticksToUs => exact if_pos h
  | msToTicks => exact if_pos ((Nat.div_lt_iff_lt_mul (by decide)).1 h)
  | ticksToMs =>
    have hspan : n > 65535 := h
    simp [convert, ticksToMs, ticksToUs, hspan]

/-- A conversion of any operand gives a number, or the one fault `DurationOutOfRange` of that operand (40 R110). -/
theorem convert_total (cfg : ClockConfig) (f : Conversion) (n : Nat) :
    (∃ v, convert cfg f n = .ok v) ∨ convert cfg f n = .error (.durationOutOfRange n) := by
  rcases Nat.lt_or_ge (f.bound cfg) n with h | h
  · exact .inr (convert_of_bound_lt h)
  · exact .inl ⟨_, convert_of_le_bound h⟩

theorem eq_value_of_convert {cfg : ClockConfig} {f : Conversion} {n v : Nat} (h : convert cfg f n = .ok v) :
    v = f.value cfg n := by
  rcases Nat.lt_or_ge (f.bound cfg) n with hn | hn
  · cases (convert_of_bound_lt hn).symm.trans h
  · cases (convert_of_le_bound hn).symm.trans h
    rfl

/-! ### The divisions are floor divisions -/

/-- A floor quotient, by the two bounds that fix it. -/
theorem floor_bounds (a : Nat) {b : Nat} (hb : 0 < b) : a / b * b ≤ a ∧ a < (a / b + 1) * b :=
  ⟨Nat.div_mul_le_self a b, (Nat.div_lt_iff_lt_mul hb).1 (Nat.lt_succ_self _)⟩

/-- The two divisions of `ticks_to_ms` in tier `SMALL` make one floor division (40 R114). -/
theorem floor_bounds_twice (a : Nat) {b c : Nat} (hb : 0 < b) (hc : 0 < c) :
    a / b / c * c * b ≤ a ∧ a < (a / b / c + 1) * c * b := by
  rw [Nat.div_div_eq_div_mul, Nat.mul_assoc, Nat.mul_assoc, Nat.mul_comm c b]
  exact floor_bounds a (Nat.mul_pos hb hc)

/-! ### The turn of a conversion -/

theorem foregroundDescriptor_convert (cfg : ValidConfig) {s : State} {f : Conversion} {x : Word}
    {rest : List Request} (hr : s.frame = .idle) (hp : s.program = .convert f x :: rest) :
    foregroundDescriptor cfg s = none := by
  simp [foregroundDescriptor, hr, hp]

/-- The turn of a conversion within its bound writes nothing but the program and the returned value. -/
theorem foregroundTurn_convert_ok {cfg : ValidConfig} {s : State} {f : Conversion} {x : Word} {v : Nat}
    {rest : List Request} (hf : s.faults = []) (hr : s.frame = .idle) (hp : s.program = .convert f x :: rest)
    (h : convert cfg.clock f x.toNat = .ok v) :
    foregroundTurn cfg s =
      .next { s with program := rest, returned := .converted f x.toNat v :: s.returned } := by
  rw [foregroundTurn_start cfg hf hr hp, startRequest, h]
  simp [State.giveBack, hr]

/-- The turn of a conversion beyond its bound writes nothing but the program and the fault. -/
theorem foregroundTurn_convert_error {cfg : ValidConfig} {s : State} {f : Conversion} {x : Word}
    {e : FaultRecord} {rest : List Request} (hf : s.faults = []) (hr : s.frame = .idle)
    (hp : s.program = .convert f x :: rest) (h : convert cfg.clock f x.toNat = .error e) :
    foregroundTurn cfg s = .next ({ s with program := rest }.raise e) := by
  rw [foregroundTurn_start cfg hf hr hp, startRequest, h]
  rfl

/-! ### The obligation -/

/-- Settles O33: the answer by the operand's bound, the floor bounds by the tier, and the turn by the answer. -/
theorem conversionsAreTotalAndPure : Obligations.ConversionsAreTotalAndPure := by
  intro cfg x
  have hlarge := usPerTick_pos cfg.valid
  have hsmall := ticksPerUs_pos cfg.valid
  refine ⟨?factor, fun f => convert_total cfg.clock f x.toNat, fun v h => ?usToTicks, fun v h => ?ticksToUs,
    fun v h => ?msToTicks, fun v h => ?ticksToMs,
    fun f s rest hf hr hp => ⟨foregroundDescriptor_convert cfg hr hp, ?turn⟩⟩
  case factor =>
    cases ht : tier cfg.clock with
    | large => exact hlarge ht
    | small => exact hsmall ht
  case turn =>
    cases h : convert cfg.clock f x.toNat with
    | ok v => exact foregroundTurn_convert_ok hf hr hp h
    | error e => exact foregroundTurn_convert_error hf hr hp h
  all_goals rw [eq_value_of_convert h, Conversion.value]
  case usToTicks =>
    cases ht : tier cfg.clock with
    | large => rw [scaleToTicks_large ht]; exact floor_bounds _ (hlarge ht)
    | small => exact scaleToTicks_small ht _
  case ticksToUs =>
    cases ht : tier cfg.clock with
    | large => exact scaleToUs_large ht _
    | small => rw [scaleToUs_small ht]; exact floor_bounds _ (hsmall ht)
  case msToTicks =>
    cases ht : tier cfg.clock with
    | large => rw [scaleToTicks_large ht]; exact floor_bounds _ (hlarge ht)
    | small => exact scaleToTicks_small ht _
  case ticksToMs =>
    cases ht : tier cfg.clock with
    | large => rw [scaleToUs_large ht]; exact floor_bounds _ (by decide)
    | small => rw [scaleToUs_small ht]; exact floor_bounds_twice _ (hsmall ht) (by decide)

end Sys2Proof.Machine
end

section
/-! O1 to O8: the decoder and the encoder are inverse to each other, and both follow the opcode map (30 §2 to §4). -/

namespace Sys2Proof.Machine

/-! ### Every transaction is the read or a write of one register (30 R73) -/

/-- The twelve transactions are the six reads and the six writes. -/
theorem instr_eq_read_or_write (i : Instr) : (∃ r : Reg, i = r.readInstr) ∨ ∃ (r : Reg) (d : Word), i = r.writeInstr d := by
  cases i with
  | rdCtrl => exact .inl ⟨.ctrl, rfl⟩
  | rdCnt => exact .inl ⟨.cnt, rfl⟩
  | rdCmp => exact .inl ⟨.cmp, rfl⟩
  | rdIer => exact .inl ⟨.ier, rfl⟩
  | rdIfr => exact .inl ⟨.ifr, rfl⟩
  | rdMs => exact .inl ⟨.ms, rfl⟩
  | wrCtrl d => exact .inr ⟨.ctrl, d, rfl⟩
  | wrCnt d => exact .inr ⟨.cnt, d, rfl⟩
  | wrCmp d => exact .inr ⟨.cmp, d, rfl⟩
  | wrIer d => exact .inr ⟨.ier, d, rfl⟩
  | wrIfr d => exact .inr ⟨.ifr, d, rfl⟩
  | wrMs d => exact .inr ⟨.ms, d, rfl⟩

@[simp] theorem encode_readInstr (r : Reg) : encode r.readInstr = readDescriptor r.offset := by cases r <;> rfl

@[simp] theorem encode_writeInstr (r : Reg) (d : Word) : encode (r.writeInstr d) = writeDescriptor r.offset d := by
  cases r <;> rfl

@[simp] theorem decode_readDescriptor_offset (r : Reg) : decode (readDescriptor r.offset) = .ok r.readInstr := by
  rw [decode_readDescriptor, ofOffset_offset]

@[simp] theorem decode_writeDescriptor_offset (r : Reg) (d : Word) :
    decode (writeDescriptor r.offset d) = .ok (r.writeInstr d) := by
  rw [decode_writeDescriptor, ofOffset_offset]

/-- Settles O1: an instruction is the read or a write of a register, and decode inverts both forms of descriptor. -/
theorem decodeInvertsEncode : Obligations.DecodeInvertsEncode := by
  intro i
  obtain ⟨r, rfl⟩ | ⟨r, d, rfl⟩ := instr_eq_read_or_write i
  · rw [encode_readInstr, decode_readDescriptor_offset]
  · rw [encode_writeInstr, decode_writeDescriptor_offset]

/-! ### A descriptor is its four fields (30 R71) -/

/-- The four fields leave out no bit of a descriptor. -/
theorem descriptor_ext {T U : Descriptor} (hdir : dirField T = dirField U) (hrsv : rsvField T = rsvField U)
    (hoff : offField T = offField U) (hdata : dataField T = dataField U) : T = U := by
  have field {start len i : Nat} (hf : T.extractLsb' start len = U.extractLsb' start len)
      (hlo : start ≤ i) (hhi : i < start + len) : T.getLsbD i = U.getLsbD i := by
    have hbit := congrArg (·.getLsbD (i - start)) hf
    simpa [show i - start < len by omega, show start + (i - start) = i by omega] using hbit
  refine BitVec.eq_of_getLsbD_eq fun i hi => ?_
  rcases Nat.lt_or_ge i 32 with h | h
  · exact field hdata (by omega) (by omega)
  · rcases Nat.lt_or_ge i 40 with h' | h'
    · exact field hoff h (by omega)
    · rcases Nat.lt_or_ge i 63 with h'' | h''
      · exact field hrsv h' (by omega)
      · obtain rfl : i = 63 := by omega
        exact hdir

/-- What decode accepts: the reserved field 0, and either a read of a register without data or a write of one. -/
theorem fields_of_decode {T : Descriptor} {i : Instr} (h : decode T = .ok i) :
    ∃ r : Reg, rsvField T = 0#23 ∧ offField T = r.offset ∧
      ((dirField T = false ∧ dataField T = 0#32 ∧ i = r.readInstr) ∨
        (dirField T = true ∧ i = r.writeInstr (dataField T))) := by
  unfold decode at h
  split at h
  · cases h
  · rename_i hrsv
    split at h
    · cases h
    · rename_i hread
      split at h
      · cases h
      · rename_i r hr
        refine ⟨r, not_not.1 hrsv, (offset_of_ofOffset _ _ hr).symm, ?_⟩
        cases hdir : dirField T <;> simp only [hdir] at h hread <;> cases h
        · exact .inl ⟨rfl, by simpa using hread, rfl⟩
        · exact .inr ⟨rfl, rfl⟩

/-- The descriptor of the instruction that a descriptor decodes to is that descriptor. -/
theorem encode_of_decode {T : Descriptor} {i : Instr} (h : decode T = .ok i) : encode i = T := by
  obtain ⟨r, hrsv, hoff, ⟨hdir, hdata, rfl⟩ | ⟨hdir, rfl⟩⟩ := fields_of_decode h
  · rw [encode_readInstr]
    exact descriptor_ext (by rw [dirField_readDescriptor, hdir]) (by rw [rsvField_readDescriptor, hrsv])
      (by rw [offField_readDescriptor, hoff]) (by rw [dataField_readDescriptor, hdata])
  · rw [encode_writeInstr]
    exact descriptor_ext (by rw [dirField_writeDescriptor, hdir]) (by rw [rsvField_writeDescriptor, hrsv])
      (by rw [offField_writeDescriptor, hoff]) (by rw [dataField_writeDescriptor])

/-- Settles O2, by the four fields of the descriptor. -/
theorem encodeInvertsDecode : Obligations.EncodeInvertsDecode := fun _ _ => encode_of_decode

/-- Decode and encode are one relation between descriptors and instructions. -/
theorem decode_eq_ok_iff {T : Descriptor} {i : Instr} : decode T = .ok i ↔ encode i = T := by
  refine ⟨encode_of_decode, ?_⟩
  rintro rfl
  exact decodeInvertsEncode i

/-! ### The opcode map (30 R73) -/

/-- The mask of a row: a write's `DATA` is free, a read's is not. -/
def directionMask (write : Bool) : Descriptor := if write then 0xFFFFFFFF00000000#64 else 0xFFFFFFFFFFFFFFFF#64

/-- A row's pattern is the descriptor of its instruction with `DATA` 0, and its mask is that of its direction. -/
theorem opcodeRows_pattern_mask :
    ∀ r ∈ opcodeRows, r.pattern = encode (r.instr 0#32) ∧ r.mask = directionMask r.write := by decide

/-- The map has a row for every register in each direction. -/
theorem exists_opcodeRow (w : Bool) (g : Reg) : ∃ r ∈ opcodeRows, r.write = w ∧ r.reg = g := by
  revert w
  cases g <;> decide

/-- Two rows of the same direction and register are the same row. -/
theorem opcodeRow_ext : ∀ r ∈ opcodeRows, ∀ q ∈ opcodeRows, r.write = q.write → r.reg = q.reg → r = q := by decide

theorem opcodeRows_nodup : opcodeRows.Nodup := by decide

/-- Bits 63 to 32 of a descriptor. -/
theorem getLsbD_high_mask (i : Nat) :
    (0xFFFFFFFF00000000#64).getLsbD i = (decide (32 ≤ i) && decide (i < 64)) := by
  rw [show (0xFFFFFFFF00000000#64) = BitVec.allOnes 64 <<< 32 by decide]
  rw [BitVec.getLsbD_shiftLeft, BitVec.getLsbD_allOnes]
  by_cases h : i < 32
  · simp [h]
  · simp [h, Nat.not_lt.1 h, show i - 32 < 64 ↔ i < 96 by omega]
    omega

/-- Masking out `DATA` leaves the descriptor of a write of 0 exactly where the descriptor is that of a write. -/
theorem and_high_mask_eq_iff (T : Descriptor) (off : Offset) :
    T &&& 0xFFFFFFFF00000000#64 = writeDescriptor off 0#32 ↔ T = writeDescriptor off (dataField T) := by
  have hdata (i : Nat) : (dataField T).getLsbD i = (decide (i < 32) && T.getLsbD i) := by simp [dataField]
  constructor
  · intro h
    refine BitVec.eq_of_getLsbD_eq fun i hi => ?_
    have hbit := congrArg (·.getLsbD i) h
    simp only [BitVec.getLsbD_and, getLsbD_high_mask, getLsbD_writeDescriptor, BitVec.getLsbD_zero, Bool.or_false, hi,
      decide_true, Bool.and_true] at hbit
    rw [getLsbD_writeDescriptor, ← hbit, hdata]
    by_cases h32 : i < 32 <;> simp [h32]
    all_goals omega
  · intro h
    refine BitVec.eq_of_getLsbD_eq fun i hi => ?_
    have hbit := congrArg (·.getLsbD i) h
    simp only [getLsbD_writeDescriptor, hdata] at hbit
    simp only [BitVec.getLsbD_and, getLsbD_high_mask, getLsbD_writeDescriptor, BitVec.getLsbD_zero, Bool.or_false, hi,
      decide_true, Bool.and_true]
    by_cases h32 : i < 32
    · simp [Nat.not_le.2 h32, show i ≠ 63 by omega]
    · simpa [Nat.not_lt.1 h32, h32] using hbit

/-- A row selects exactly the descriptors of its instructions. -/
theorem selects_iff {r : OpcodeRow} (hr : r ∈ opcodeRows) (T : Descriptor) :
    r.selects T = true ↔ encode (r.instr (dataField T)) = T := by
  obtain ⟨hpattern, hmask⟩ := opcodeRows_pattern_mask r hr
  rw [OpcodeRow.selects, hpattern, hmask, beq_iff_eq]
  cases hw : r.write
  · have hones : T &&& 0xFFFFFFFFFFFFFFFF#64 = T := BitVec.and_allOnes
    simp only [OpcodeRow.instr, hw, directionMask, Bool.false_eq_true, reduceIte, hones]
    exact eq_comm
  · simp only [OpcodeRow.instr, hw, directionMask, reduceIte, encode_writeInstr]
    rw [and_high_mask_eq_iff, eq_comm]

/-- A row that selects a descriptor has the direction and the offset of its fields. -/
theorem fields_of_selects {r : OpcodeRow} (hr : r ∈ opcodeRows) {T : Descriptor} (h : r.selects T = true) :
    dirField T = r.write ∧ offField T = r.reg.offset := by
  rw [← (selects_iff hr T).1 h]
  cases hw : r.write
  · simp [OpcodeRow.instr, hw, dirField_readDescriptor, offField_readDescriptor]
  · simp [OpcodeRow.instr, hw, dirField_writeDescriptor, offField_writeDescriptor]

/-- No descriptor selects two rows. -/
theorem selects_unique {r q : OpcodeRow} (hr : r ∈ opcodeRows) (hq : q ∈ opcodeRows) {T : Descriptor}
    (hrT : r.selects T = true) (hqT : q.selects T = true) : r = q := by
  obtain ⟨hrw, hro⟩ := fields_of_selects hr hrT
  obtain ⟨hqw, hqo⟩ := fields_of_selects hq hqT
  have hreg : some r.reg = some q.reg := by rw [← ofOffset_offset, ← ofOffset_offset, ← hro, ← hqo]
  exact opcodeRow_ext r hr q hq (hrw.symm.trans hqw) (Option.some.inj hreg)

/-- A descriptor decodes exactly when a row selects it, and then to the row's instruction. -/
theorem decode_eq_ok_iff_selects (T : Descriptor) (i : Instr) :
    decode T = .ok i ↔ ∃ r ∈ opcodeRows, r.selects T = true ∧ i = r.instr (dataField T) := by
  constructor
  · intro h
    obtain ⟨g, -, -, ⟨-, -, rfl⟩ | ⟨-, rfl⟩⟩ := fields_of_decode h
    · obtain ⟨r, hr, hw, rfl⟩ := exists_opcodeRow false g
      have hi : r.reg.readInstr = r.instr (dataField T) := by simp [OpcodeRow.instr, hw]
      exact ⟨r, hr, (selects_iff hr T).2 (hi ▸ encode_of_decode h), hi⟩
    · obtain ⟨r, hr, hw, rfl⟩ := exists_opcodeRow true g
      have hi : r.reg.writeInstr (dataField T) = r.instr (dataField T) := by simp [OpcodeRow.instr, hw]
      exact ⟨r, hr, (selects_iff hr T).2 (hi ▸ encode_of_decode h), hi⟩
  · rintro ⟨r, hr, hsel, rfl⟩
    exact decode_eq_ok_iff.2 ((selects_iff hr T).1 hsel)

/-- Settles O3: decode by the selected row, and the rows by their direction and register. -/
theorem decodeFollowsTheOpcodeMap : Obligations.DecodeFollowsTheOpcodeMap := by
  refine ⟨decode_eq_ok_iff_selects, opcodeRows_nodup.imp_of_mem fun hr hq hne T hboth => ?_⟩
  exact hne (selects_unique hr hq hboth.1 hboth.2)

/-! ### The checks of decode, in their order (30 R74) -/

/-- Steps 1 and 2 of 30 R74: the reserved field, and the data of a read. -/
def fieldsIllegal (T : Descriptor) : Prop := rsvField T ≠ 0#23 ∨ (dirField T = false ∧ dataField T ≠ 0#32)

theorem decode_of_fieldsIllegal {T : Descriptor} (h : fieldsIllegal T) :
    decode T = .error (.illegalTransaction T) := by
  unfold decode
  split
  · rfl
  · rename_i hrsv
    rw [if_pos (h.resolve_left hrsv)]

theorem decode_of_unmapped {T : Descriptor} (h : ¬ fieldsIllegal T) (hoff : Reg.ofOffset (offField T) = none) :
    decode T = .error (.badOffset (offField T)) := by
  obtain ⟨hrsv, hread⟩ := not_or.1 h
  rw [decode, if_neg hrsv, if_neg hread, hoff]

theorem decode_of_mapped {T : Descriptor} {g : Reg} (h : ¬ fieldsIllegal T) (hoff : Reg.ofOffset (offField T) = some g) :
    decode T = .ok (if dirField T then g.writeInstr (dataField T) else g.readInstr) := by
  obtain ⟨hrsv, hread⟩ := not_or.1 h
  rw [decode, if_neg hrsv, if_neg hread, hoff]

theorem transact_of_error {T : Descriptor} {f : FaultRecord} (h : decode T = .error f) (s : State) :
    transact T s = .next (s.raise f) := by
  rw [transact, h]; rfl

theorem transact_of_ok {T : Descriptor} {i : Instr} (h : decode T = .ok i) (s : State) : transact T s = exec i s := by
  rw [transact, h]

/-- Settles O4, check by check. -/
theorem decodeChecksInOrder : Obligations.DecodeChecksInOrder := by
  intro T s
  split
  · rename_i hillegal
    exact ⟨_, transact_of_error (decode_of_fieldsIllegal hillegal) s, rfl, rfl⟩
  · rename_i hlegal
    split
    · rename_i hoff
      exact ⟨_, transact_of_error (decode_of_unmapped hlegal ((ofOffset_eq_none_iff _).2 hoff)) s, rfl, rfl⟩
    · rename_i hoff
      obtain ⟨g, hg⟩ := Option.ne_none_iff_exists'.1 (mt (ofOffset_eq_none_iff (offField T)).1 hoff)
      have hdecode := decode_of_mapped hlegal hg
      obtain ⟨r, hr, hsel, hi⟩ := (decode_eq_ok_iff_selects T _).1 hdecode
      exact ⟨r, hr, hsel, fun q hq hqT => selects_unique hq hr hqT hsel, (transact_of_ok hdecode s).trans (by rw [hi]; rfl)⟩

/-- Settles O5: the four lines by running the assembler on each, their words by running the encoder. -/
theorem workedEncodings : Obligations.WorkedEncodings := by
  refine ⟨⟨?_, ?_⟩, ⟨?_, ?_⟩, ⟨?_, ?_⟩, ⟨?_, ?_⟩⟩ <;> decide

/-- Settles O6: the four legal words are the descriptors of their instructions, the three others fail the check that
the fault names. -/
theorem writtenOutWordsDecode : Obligations.WrittenOutWordsDecode :=
  ⟨decode_eq_ok_iff.2 (by decide), decode_eq_ok_iff.2 (by decide), decode_eq_ok_iff.2 (by decide),
    decode_eq_ok_iff.2 (by decide), decode_of_fieldsIllegal (.inl (by decide)),
    decode_of_fieldsIllegal (.inr (by decide)), decode_of_unmapped (by unfold fieldsIllegal; decide) (by decide)⟩

/-! ### The pseudo-instructions (30 R78) -/

/-- The clock-select table read backwards gives the code it was read forwards from (10 R24). -/
theorem clockCode_of_divisor {code : ClockCode} {d : Nat} (hd : divisor code = some d) (hc : code ≠ 0#3) :
    clockCode d = some code := by
  have table : ∀ c : ClockCode, c ≠ 0#3 → (divisor c).isSome → (divisor c).bind clockCode = some c := by decide
  simpa [hd] using table code hc (by simp [hd])

theorem expand_setPrescaler (set : List Nat) {d : Nat} (hd : d ≠ 0) :
    (Pseudo.setPrescaler d).expand set =
      if supports set d then (clockCode d).map (fun code => .wrCtrl (zext32 code)) else none := by
  cases d with
  | zero => exact absurd rfl hd
  | succ n => rfl

/-- Settles O7: `set_prescaler` by its set and its code, the target by its bound, the others by their one line. -/
theorem pseudoInstructionsExpand : Obligations.PseudoInstructionsExpand := by
  refine ⟨fun set => ⟨rfl, fun d hd hset => ?_, fun d code hset hdiv hcode => ?_, fun v => ?_,
    rfl, rfl, rfl, rfl, rfl, rfl, rfl⟩, ?_⟩
  · simp [expand_setPrescaler set hd, supports, hset]
  · have hd : d ≠ 0 := (divisor_pos hdiv).ne'
    simp [expand_setPrescaler set hd, supports, hset, clockCode_of_divisor hdiv hcode, zext32]
  · by_cases h : v ≤ 0xFFFF
    · simp [Pseudo.expand, h, Nat.not_lt.2 h]
    · simp [Pseudo.expand, h, Nat.lt_of_not_le h]
  · decide

/-! ### Serialisation (20 R52) -/

/-- A byte put back at its place holds the bits it was cut from, and no others. -/
theorem getLsbD_byte_shiftLeft {n : Nat} (v : BitVec n) (k : Nat) {i : Nat} (hi : i < n) :
    ((v.extractLsb' k 8).setWidth n <<< k).getLsbD i = (decide (k ≤ i) && decide (i < k + 8) && v.getLsbD i) := by
  by_cases h : i < k
  · simp [h, Nat.not_le.2 h]
  · simp [h, Nat.not_lt.1 h, hi, show k + (i - k) = i by omega,
      show i - k < 8 ↔ i < k + 8 by omega]

theorem getLsbD_low_byte {n : Nat} (v : BitVec n) {i : Nat} (hi : i < n) :
    ((v.extractLsb' 0 8).setWidth n).getLsbD i = (decide (i < 8) && v.getLsbD i) := by
  simpa using getLsbD_byte_shiftLeft v 0 hi

/-- A byte of a value is the value divided by its place, mod 2^8. -/
theorem toNat_byte {n : Nat} (v : BitVec n) (k : Nat) :
    (v.extractLsb' k 8).toNat = v.toNat / 2 ^ k % 256 := by
  rw [BitVec.extractLsb'_toNat, Nat.shiftRight_eq_div_pow]

theorem descriptorOfBytes_descriptorBytes (T : Descriptor) : descriptorOfBytes (descriptorBytes T) = some T := by
  refine congrArg some (BitVec.eq_of_getLsbD_eq fun i hi => ?_)
  simp only [BitVec.getLsbD_or, getLsbD_byte_shiftLeft T _ hi, getLsbD_low_byte T hi]
  cases T.getLsbD i <;> simp
  omega

theorem wordOfBytes_wordBytes (v : Word) : wordOfBytes (wordBytes v) = some v := by
  refine congrArg some (BitVec.eq_of_getLsbD_eq fun i hi => ?_)
  simp only [BitVec.getLsbD_or, getLsbD_byte_shiftLeft v _ hi, getLsbD_low_byte v hi]
  cases v.getLsbD i <;> simp
  omega

/-- The `k`-th byte of a serialisation is cut at bit `8 k`. -/
theorem descriptorBytes_getElem? (T : Descriptor) (k : Nat) :
    (descriptorBytes T)[k]? = if k < 8 then some (T.extractLsb' (8 * k) 8) else none := by
  rcases k with _ | _ | _ | _ | _ | _ | _ | _ | k <;> simp [descriptorBytes]

theorem wordBytes_getElem? (v : Word) (k : Nat) :
    (wordBytes v)[k]? = if k < 4 then some (v.extractLsb' (8 * k) 8) else none := by
  rcases k with _ | _ | _ | _ | k <;> simp [wordBytes]

/-- Settles O8: bit by bit for the way back, byte by byte for the order. -/
theorem serialisationRoundTrips : Obligations.SerialisationRoundTrips := by
  refine fun T => ⟨descriptorOfBytes_descriptorBytes T, fun k b h => ?_, fun v => ⟨wordOfBytes_wordBytes v, fun k b h => ?_⟩⟩
  · rw [descriptorBytes_getElem?] at h
    split at h <;> cases h
    exact toNat_byte T _
  · rw [wordBytes_getElem?] at h
    split at h <;> cases h
    exact toNat_byte v _

end Sys2Proof.Machine
end

section
/-! O9 to O14, O16 to O20 and O56: what each transaction answers for every `DATA`, in every state (41 R130 to R144). -/

namespace Sys2Proof.Machine

/-! ### The fields of `DATA` (30 R72, R75) -/

/-- With the reserved bits 0, the clock-select field is the whole of `DATA`. -/
theorem toNat_of_ctrlReserved {data : Word} (h : ctrlReserved data = 0#29) : data.toNat = (ctrlField data).toNat := by
  have hreserved := congrArg BitVec.toNat h
  simp only [ctrlReserved, BitVec.extractLsb'_toNat, Nat.shiftRight_eq_div_pow, BitVec.toNat_ofNat] at hreserved
  simp only [ctrlField, BitVec.extractLsb'_toNat, Nat.shiftRight_zero]
  omega

/-- With the reserved bits 0, the one-bit field of `DATA` says whether `DATA` is 1. -/
theorem bitField_of_bitReserved {data : Word} (h : bitReserved data = 0#31) :
    bitField data = decide (data = 1#32) := by
  have hreserved := congrArg BitVec.toNat h
  simp only [bitReserved, BitVec.extractLsb'_toNat, Nat.shiftRight_eq_div_pow, BitVec.toNat_ofNat] at hreserved
  have hlt : data.toNat = 0 ∨ data.toNat = 1 := by omega
  rcases hlt with h0 | h1
  · obtain rfl : data = 0#32 := BitVec.eq_of_toNat_eq h0
    decide
  · obtain rfl : data = 1#32 := BitVec.eq_of_toNat_eq h1
    decide

/-- A one-bit register reads as 1 or 0 (20 R54). -/
theorem bitWord_eq (b : Bool) : bitWord b = if b then 1#32 else 0#32 := by cases b <;> rfl

theorem divisor_eq_none_iff (c : ClockCode) : divisor c = none ↔ 5 < c.toNat := by
  rw [← Option.not_isSome_iff_eq_none, divisor_isSome_iff, not_le]

/-- The table of 10 R24, with 1 as the bound of the phase for the stopped clock (41 R133). -/
theorem mem_table_of_divisor {c : ClockCode} {d : Nat} (h : divisor c = some d) :
    (c.toNat, d) ∈ [(0, 1), (1, 1), (2, 8), (3, 64), (4, 256), (5, 1024)] := by
  have table : ∀ c : ClockCode,
      (divisor c).all (fun d => decide ((c.toNat, d) ∈ [(0, 1), (1, 1), (2, 8), (3, 64), (4, 256), (5, 1024)])) := by
    decide
  simpa only [h, Option.all_some, decide_eq_true_eq] using table c

/-! ### The four accepted writes and their faults (41 R133, R137, R139, R141) -/

theorem exec_wrCtrl_of_reserved {data : Word} (h : ctrlReserved data ≠ 0#29) (s : State) :
    exec (.wrCtrl data) s = .next (s.raise (.reservedBits 0x00#8 data)) := if_pos h

theorem exec_wrCtrl_of_reserved_code {data : Word} (h : ctrlReserved data = 0#29)
    (hcode : divisor (ctrlField data) = none) (s : State) :
    exec (.wrCtrl data) s = .next (s.raise (.reservedPrescaleCode (ctrlField data))) := by
  simp only [exec, execWrCtrl, h, hcode, ne_eq, not_true_eq_false, if_false]
  rfl

theorem exec_wrCtrl_of_code {data : Word} {d : Nat} (h : ctrlReserved data = 0#29)
    (hcode : divisor (ctrlField data) = some d) (s : State) :
    exec (.wrCtrl data) s = .next ((s.selectClock (ctrlField data) d).complete .written) := by
  simp only [exec, execWrCtrl, h, hcode, ne_eq, not_true_eq_false, if_false]
  rfl

theorem exec_wrCmp_of_reserved {data : Word} (h : cmpReserved data ≠ 0#16) (s : State) :
    exec (.wrCmp data) s = .next (s.raise (.reservedBits 0x08#8 data)) := if_pos h

theorem exec_wrCmp_of_legal {data : Word} (h : cmpReserved data = 0#16) (s : State) :
    exec (.wrCmp data) s = .next { s with cmp := cmpField data, completion := .written } := if_neg (not_not.2 h)

theorem exec_wrIer_of_legal {data : Word} (h : bitReserved data = 0#31) (s : State) :
    exec (.wrIer data) s = .next { s with cmie := bitField data, completion := .written } := if_neg (not_not.2 h)

theorem exec_wrIfr_of_reserved {data : Word} (h : bitReserved data ≠ 0#31) (s : State) :
    exec (.wrIfr data) s = .next (s.raise (.reservedBits 0x10#8 data)) := if_pos h

theorem exec_wrIfr_of_legal {data : Word} (h : bitReserved data = 0#31) (s : State) :
    exec (.wrIfr data) s = .next { s with cmf := flagAfterClear s.cmf (bitField data), completion := .written } :=
  if_neg (not_not.2 h)

theorem exec_wrCnt (data : Word) (s : State) : exec (.wrCnt data) s = .next (s.raise (.readOnlyWrite 0x04#8)) := rfl

theorem exec_wrMs (data : Word) (s : State) : exec (.wrMs data) s = .next (s.raise (.readOnlyWrite 0x14#8)) := rfl

theorem mem_faults_raise (s : State) (f : FaultRecord) : f ∈ (s.raise f).faults :=
  (mem_recordFault _ _ _).2 (.inl rfl)

/-! ### Register by register -/

/-- Settles O9: each read completes with its register, and a one-bit register reads as 1 or 0. -/
theorem readsReturnTheRegister : Obligations.ReadsReturnTheRegister := by
  intro s
  refine ⟨rfl, rfl, rfl, ?_, ?_, rfl⟩
  · rw [← bitWord_eq]; rfl
  · rw [← bitWord_eq]; rfl

/-- Settles O10, check by check, and then by whether the code is a new one. -/
theorem writeCtrlSelectsTheClock : Obligations.WriteCtrlSelectsTheClock := by
  intro data s
  split
  · exact exec_wrCtrl_of_reserved ‹_› s
  · rename_i hres
    have hres : ctrlReserved data = 0#29 := not_not.1 hres
    split
    · exact exec_wrCtrl_of_reserved_code hres ((divisor_eq_none_iff _).2 ‹_›) s
    · rename_i hcode
      obtain ⟨d, hd⟩ := Option.ne_none_iff_exists'.1 (mt (divisor_eq_none_iff (ctrlField data)).1 hcode)
      have hexec := exec_wrCtrl_of_code hres hd s
      split
      · have hsame : ctrlField data = s.cs := ‹_›
        rw [hexec, State.selectClock, if_pos hsame]
        rfl
      · rename_i hnew
        obtain ⟨hsame, -⟩ | ⟨-, p, hp, hsel⟩ := selectClock_cases s (ctrlField data) (divisor_pos hd)
        · exact absurd hsame hnew
        · refine ⟨d, p, ?_, hp, ?_⟩
          · rw [toNat_of_ctrlReserved hres]
            exact mem_table_of_divisor hd
          · rw [hexec, hsel]
            rfl

/-- Settles O11: `RD_CTRL` zero-extends a 3-bit field, and `WR_CTRL` checks the reserved bits first. -/
theorem ctrlReservedBits : Obligations.CtrlReservedBits := by
  intro s data
  refine ⟨⟨_, _, exec_readInstr .ctrl s, rfl, ?_⟩, fun hres => ?_⟩
  · have reads_zero : ∀ c : ClockCode, (zext32 c).extractLsb' 3 29 = 0#29 := by decide
    exact reads_zero s.cs
  · exact ⟨_, exec_wrCtrl_of_reserved hres s, rfl, mem_faults_raise s _, rfl, rfl⟩

/-- Settles O12, by the rule of `WR_CNT`. -/
theorem counterWriteIsForbidden : Obligations.CounterWriteIsForbidden := fun data s =>
  ⟨decode_writeDescriptor_offset .cnt data, _, exec_wrCnt data s, rfl, mem_faults_raise s _, rfl, rfl⟩

/-- Settles O13, by the rule of `WR_MS`. -/
theorem accumulatorWriteIsForbidden : Obligations.AccumulatorWriteIsForbidden := fun data s =>
  ⟨decode_writeDescriptor_offset .ms data, _, exec_wrMs data s, rfl, mem_faults_raise s _, rfl, rfl⟩

/-- Settles O14: each of the two writes by whether a reserved bit is set. -/
theorem targetAndEnableWrites : Obligations.TargetAndEnableWrites := by
  intro data s
  constructor
  · split
    · exact exec_wrCmp_of_reserved ‹_› s
    · exact exec_wrCmp_of_legal (not_not.1 ‹_›) s
  · split
    · exact exec_wrIer_of_reserved ‹_› s
    · rename_i hres
      have hbit := bitField_of_bitReserved (not_not.1 hres)
      exact ⟨_, exec_wrIer_of_legal (not_not.1 hres) s, by simp [State.irq, irqLevel, hbit], by rw [hbit]⟩

/-- Settles O16: `WR_IFR` by its reserved bits and its clear request, and `MS` by the frame of a transaction. -/
theorem writeIfrClearsTheFlag : Obligations.WriteIfrClearsTheFlag := by
  intro data s
  refine ⟨decode_writeDescriptor_offset .ifr data, ?_, fun t h => ?_⟩
  case refine_2 =>
    obtain ⟨-, -, -, -, -, hms⟩ := exec_writes_own_register h
    exact hms
  split
  · exact exec_wrIfr_of_reserved ‹_› s
  · rename_i hres
    have hexec := exec_wrIfr_of_legal (not_not.1 hres) s
    split
    · have hbit : bitField data = true := ‹_›
      rw [hexec, hbit]
      rfl
    · have hbit : bitField data = false := Bool.eq_false_iff.2 ‹_›
      rw [hexec, hbit]
      rfl

/-! ### The frame of every transaction -/

/-- No transaction writes the counter, the accumulator, `INIT`, `GIE` or what the foreground is about. -/
theorem BusEffect.keeps_frame {s u : State} (h : BusEffect s u) :
    u.cnt = s.cnt ∧ u.ms = s.ms ∧ u.initDone = s.initDone ∧ u.gie = s.gie ∧ u.frame = s.frame ∧
    u.returned = s.returned ∧ u.program = s.program ∧ u.turns = s.turns ∧ u.savedGie = s.savedGie := by
  cases h <;> simp

theorem busEffect_of_exec {i : Instr} {s t : State} (h : exec i s = .next t) : BusEffect s t := by
  obtain ⟨u, hu, he⟩ := exec_effect i s
  cases h.symm.trans hu
  exact he

/-- Only `WR_CTRL` writes the prescaler phase, and draws for it. -/
theorem exec_keeps_phase {i : Instr} {s t : State} (h : exec i s = .next t) (hi : ∀ d, i ≠ .wrCtrl d) :
    t.psc = s.psc ∧ t.draws = s.draws := by
  cases i with
  | rdCtrl | rdCnt | rdCmp | rdIer | rdIfr | rdMs | wrCnt _ | wrMs _ => cases h; simp
  | wrCtrl d => exact absurd rfl (hi d)
  | wrCmp d => obtain ⟨f, hs⟩ | ⟨v, hs⟩ := exec_wrCmp_cases d <;> rw [hs] at h <;> cases h <;> simp
  | wrIer d => obtain ⟨f, hs⟩ | ⟨b, hs⟩ := exec_wrIer_cases d <;> rw [hs] at h <;> cases h <;> simp
  | wrIfr d => obtain ⟨f, hs⟩ | ⟨b, hs⟩ := exec_wrIfr_cases d <;> rw [hs] at h <;> cases h <;> simp

/-- Settles O17: what no transaction writes, and each register by the write that names it. -/
theorem transactionsKeepTheFrame : Obligations.TransactionsKeepTheFrame := by
  intro i s t h
  obtain ⟨hcnt, hms, hinit, hgie, hframe, hret, hprog, hturns, hsaved⟩ := (busEffect_of_exec h).keeps_frame
  obtain ⟨hcs, -, hcmp, hcmie, hcmf, -⟩ := exec_writes_own_register h
  refine ⟨hcnt, hms, hinit, hgie, hframe, hret, hprog, hturns, hsaved, fun hi => ⟨?_, exec_keeps_phase h hi⟩,
    fun hi => ?_, fun hi => ?_, fun hi => ?_⟩
  · exact not_not.1 fun hne => (hcs hne).elim hi
  · exact not_not.1 fun hne => (hcmp hne).elim hi
  · exact not_not.1 fun hne => (hcmie hne).elim hi
  · exact not_not.1 fun hne => (hcmf hne).elim hi

/-! ### Well-formed transactions -/

/-- A transaction that completed as it should: no fault was recorded. -/
def CompletesWithoutFault (i : Instr) (s : State) : Prop :=
  ∃ t, exec i s = .next t ∧ t.faults = s.faults ∧ (t.completion = .written ∨ ∃ v, t.completion = .rdata v)

theorem read_completesWithoutFault (r : Reg) (s : State) : CompletesWithoutFault r.readInstr s :=
  ⟨_, exec_readInstr r s, rfl, .inr ⟨_, rfl⟩⟩

/-- A well-formed transaction, but for the two forbidden writes, raises no fault (30 R72, 41 R130). -/
theorem completesWithoutFault_of_wellFormed {i : Instr} (hw : i.WellFormed) (hcnt : ∀ d, i ≠ .wrCnt d)
    (hms : ∀ d, i ≠ .wrMs d) (s : State) : CompletesWithoutFault i s := by
  cases i with
  | rdCtrl => exact read_completesWithoutFault .ctrl s
  | rdCnt => exact read_completesWithoutFault .cnt s
  | rdCmp => exact read_completesWithoutFault .cmp s
  | rdIer => exact read_completesWithoutFault .ier s
  | rdIfr => exact read_completesWithoutFault .ifr s
  | rdMs => exact read_completesWithoutFault .ms s
  | wrCnt d => exact absurd rfl (hcnt d)
  | wrMs d => exact absurd rfl (hms d)
  | wrCtrl d =>
    simp only [Instr.WellFormed, Instr.wellFormed, Bool.and_eq_true, beq_iff_eq] at hw
    obtain ⟨hres, hcode⟩ := hw
    obtain ⟨p, hp⟩ := Option.isSome_iff_exists.1 hcode
    exact ⟨_, exec_wrCtrl_of_code hres hp s, by simp, .inl rfl⟩
  | wrCmp d => exact ⟨_, exec_wrCmp_of_legal (eq_of_beq hw) s, rfl, .inl rfl⟩
  | wrIer d => exact ⟨_, exec_wrIer_of_legal (eq_of_beq hw) s, rfl, .inl rfl⟩
  | wrIfr d => exact ⟨_, exec_wrIfr_of_legal (eq_of_beq hw) s, rfl, .inl rfl⟩

/-- An ill-formed transaction raises `ReservedBits` or `ReservedPrescaleCode` and does nothing else (30 R75). -/
theorem exec_of_illFormed {i : Instr} (hw : ¬ i.WellFormed) (s : State) :
    ∃ f : FaultRecord, (f.code = 4 ∨ f.code = 5) ∧ exec i s = .next (s.raise f) := by
  cases i with
  | rdCtrl | rdCnt | rdCmp | rdIer | rdIfr | rdMs | wrCnt _ | wrMs _ => exact absurd rfl hw
  | wrCtrl d =>
    by_cases hres : ctrlReserved d = 0#29
    · have hcode : divisor (ctrlField d) = none := by
        simpa [Instr.WellFormed, Instr.wellFormed, hres] using hw
      exact ⟨_, .inr rfl, exec_wrCtrl_of_reserved_code hres hcode s⟩
    · exact ⟨_, .inl rfl, exec_wrCtrl_of_reserved hres s⟩
  | wrCmp d => exact ⟨_, .inl rfl, exec_wrCmp_of_reserved (fun h => hw (beq_iff_eq.2 h)) s⟩
  | wrIer d => exact ⟨_, .inl rfl, exec_wrIer_of_reserved (fun h => hw (beq_iff_eq.2 h)) s⟩
  | wrIfr d => exact ⟨_, .inl rfl, exec_wrIfr_of_reserved (fun h => hw (beq_iff_eq.2 h)) s⟩

/-- Settles O18, by whether the transaction is well formed. -/
theorem onlyIllFormedWritesFault : Obligations.OnlyIllFormedWritesFault := by
  intro i s hcnt hms
  split
  · exact completesWithoutFault_of_wellFormed ‹_› hcnt hms s
  · exact exec_of_illFormed ‹_› s

/-! ### Bus addresses (41 R144) and the step -/

theorem transact_read_of_offset {off : Offset} {r : Reg} (h : Reg.ofOffset off = some r) (s : State) :
    transact (readDescriptor off) s = exec r.readInstr s := by
  rw [← offset_of_ofOffset off r h, transact_read]

theorem transact_write_of_offset {off : Offset} {r : Reg} (h : Reg.ofOffset off = some r) (d : Word) (s : State) :
    transact (writeDescriptor off d) s = exec (r.writeInstr d) s := by
  rw [← offset_of_ofOffset off r h, transact_write]

theorem transact_read_of_unmapped {off : Offset} (h : Reg.ofOffset off = none) (s : State) :
    transact (readDescriptor off) s = .next (s.raise (.badOffset off)) :=
  transact_of_error (by rw [decode_readDescriptor, h]) s

theorem transact_write_of_unmapped {off : Offset} (h : Reg.ofOffset off = none) (d : Word) (s : State) :
    transact (writeDescriptor off d) s = .next (s.raise (.badOffset off)) :=
  transact_of_error (by rw [decode_writeDescriptor, h]) s

theorem windowOffset_outside {cfg : ClockConfig} {addr : Nat}
    (h : addr < cfg.timerBase ∨ cfg.timerBase + 256 ≤ addr) : windowOffset cfg addr = none :=
  if_neg (by omega)

/-- Settles O19: by the register the offset names, or by there being no offset. -/
theorem busAddressSelectsTheOffset : Obligations.BusAddressSelectsTheOffset := by
  intro cfg s data
  refine ⟨fun off r hr => ⟨?_, ?_⟩, fun off hoff => ⟨?_, ?_⟩, fun addr haddr => ⟨?_, ?_⟩⟩
  · exact (memRead_busAddress cfg off s).trans (transact_read_of_offset hr s)
  · exact (memWrite_busAddress cfg off data s).trans (transact_write_of_offset hr data s)
  · exact (memRead_busAddress cfg off s).trans (transact_read_of_unmapped ((ofOffset_eq_none_iff off).2 hoff) s)
  · exact (memWrite_busAddress cfg off data s).trans (transact_write_of_unmapped ((ofOffset_eq_none_iff off).2 hoff) data s)
  · rw [memRead, windowOffset_outside haddr]
  · rw [memWrite, windowOffset_outside haddr]

/-- The step where a turn is listed is that agent's turn, on the state with the turn taken. -/
theorem stepWith_of_turns (cfg : ValidConfig) {s : State} {x : Turn} {later : List Turn} (h : s.turns = x :: later) :
    stepWith cfg s = takeTurn cfg x { s with turns := later } := by
  rw [stepWith, nextTurn, h]

/-- Settles O20: the step is `FG`'s turn, which starts the transaction that decode selects. -/
theorem stepRunsTheDecodedTransaction : Obligations.StepRunsTheDecodedTransaction := by
  intro s T i rest later hturns hf hr hp hdecode
  calc step s = foregroundTurn Config.board { s with turns := later } := stepWith_of_turns Config.board hturns
    _ = transact T { s with turns := later, program := rest } :=
      foregroundTurn_start Config.board (s := { s with turns := later }) hf hr hp
    _ = exec i { s with turns := later, program := rest } := transact_of_ok hdecode _

/-- Settles O56, by the set that `FAULT` is. -/
theorem faultIsRecordedAndNothingElse : Obligations.FaultIsRecordedAndNothingElse := fun s f =>
  ⟨mem_faults_raise s f, fun g => mem_recordFault f g s.faults, nodup_recordFault f s.faults, rfl⟩

end Sys2Proof.Machine
end

section
/-! What a turn leaves alone and that it answers, for every statement about runs: an invariant of every turn holds along
a run, the agents other than `FG` do not touch what `FG` is about, and `FG` never stops the machine within the window
(00 R6, 60 R240). -/

namespace Sys2Proof.Machine

/-! ### Along a run -/

/-- What every listed turn keeps, the run keeps. -/
theorem runTurns_invariant {cfg : ValidConfig} {P : State → Prop} {ts : List Turn}
    (hturn : ∀ x ∈ ts, ∀ s t, takeTurn cfg x s = .next t → P s → P t) {s t : State}
    (h : runTurns cfg ts s = .next t) (hs : P s) : P t := by
  induction ts generalizing s with
  | nil => cases h; exact hs
  | cons x xs ih =>
    obtain ⟨u, hu, hrun⟩ := runTurns_cons.1 h
    exact ih (fun y hy => hturn y (List.mem_cons_of_mem x hy)) hrun (hturn x List.mem_cons_self s u hu hs)

/-! ### The turns of the timer, the interrupt and the host -/

/-- What a step of another agent than `FG` leaves as it was: what the foreground is about, and the registers that only
a transaction writes (00 R6, 10 R22). -/
structure KeptByOthers (s t : State) : Prop where
  frame : t.frame = s.frame
  program : t.program = s.program
  returned : t.returned = s.returned
  faults : t.faults = s.faults
  initDone : t.initDone = s.initDone
  cs : t.cs = s.cs
  cmp : t.cmp = s.cmp
  cmie : t.cmie = s.cmie

theorem KeptByOthers.refl (s : State) : KeptByOthers s s := ⟨rfl, rfl, rfl, rfl, rfl, rfl, rfl, rfl⟩

theorem KeptByOthers.trans {s u t : State} (h : KeptByOthers s u) (h' : KeptByOthers u t) : KeptByOthers s t :=
  ⟨h'.frame.trans h.frame, h'.program.trans h.program, h'.returned.trans h.returned, h'.faults.trans h.faults,
    h'.initDone.trans h.initDone, h'.cs.trans h.cs, h'.cmp.trans h.cmp, h'.cmie.trans h.cmie⟩

theorem clockEdge_keptByOthers {s t : State} (h : clockEdge s = .next t) : KeptByOthers s t := by
  obtain ⟨-, rfl⟩ | ⟨d, -, -, ⟨-, rfl⟩ | ⟨-, rfl⟩⟩ := clockEdge_cases h
  · exact .refl _
  · constructor <;> simp
  · constructor <;> rfl

theorem serviceTurn_keptByOthers (s : State) : KeptByOthers s (serviceTurn s) := by
  obtain ⟨-, -, -, ht⟩ | ⟨-, ht⟩ := serviceTurn_cases s <;> rw [ht] <;> constructor <;> rfl

theorem hostTurn_keptByOthers (a : HostAct) (s : State) : KeptByOthers s (hostTurn a s) := by
  obtain ⟨g, l, ht⟩ := hostTurn_cases a s
  rw [ht]
  constructor <;> rfl

theorem takeTurn_keptByOthers {cfg : ValidConfig} {x : Turn} {s t : State} (hx : x ≠ .fg)
    (h : takeTurn cfg x s = .next t) : KeptByOthers s t := by
  cases x with
  | fg => exact absurd rfl hx
  | tmr => exact clockEdge_keptByOthers h
  | isr => cases h; exact serviceTurn_keptByOthers s
  | host a => cases h; exact hostTurn_keptByOthers a s

theorem runTurns_keptByOthers {cfg : ValidConfig} {ts : List Turn} {s t : State} (hts : ∀ x ∈ ts, x ≠ .fg)
    (h : runTurns cfg ts s = .next t) : KeptByOthers s t :=
  runTurns_invariant (P := KeptByOthers s)
    (fun x hx _ _ hturn hkept => hkept.trans (takeTurn_keptByOthers (hts x hx) hturn)) h (.refl s)

/-! ### No operation of the foreground blocks -/

theorem writeStep_answers (cfg : ClockConfig) (off : Offset) (d : Word) (f : Frame) (s : State) :
    ∃ t, writeStep cfg off d f s = .next t := by
  obtain ⟨u, -, h | h⟩ := writeStep_cases cfg off d f s
  · exact ⟨_, h⟩
  · exact ⟨_, h⟩

theorem readStep_answers (cfg : ClockConfig) (off : Offset) (k : Word → Frame) (s : State) :
    ∃ t, readStep cfg off k s = .next t := by
  obtain ⟨u, hu, -⟩ := transact_effect (readDescriptor off) s
  exact ⟨_, by rw [readStep, memRead_busAddress, hu]; exact afterRead_complete u u.completion k⟩

/-- Every step of a procedure answers a next state: a write, a read, or a local step. -/
theorem procStep_answers (cfg : ValidConfig) (s : State) : ∃ t, procStep cfg s = .next t := by
  cases hfr : s.frame <;> simp only [procStep, hfr]
  case initCompare | initFlags | initEnable | initClock | enableFlags | enableInterrupt | disableFlags
      | disableInterrupt => exact writeStep_answers ..
  case isEnabledRead | millisRead | microsMsThenCnt | microsCntAfter | microsCntThenMs | microsMsAfter =>
    exact readStep_answers ..
  case idle | isEnabledReturn | millisReturn | microsReturn => exact ⟨_, rfl⟩
  case microsDraw => split <;> exact ⟨_, rfl⟩
  case microsConvert => split <;> exact ⟨_, rfl⟩

theorem checkInit_answers (p : Proc) (s : State) : ∃ t, checkInit p s = .next t := by
  unfold checkInit
  split <;> split <;> exact ⟨_, rfl⟩

/-- The operation is no bus access outside the block's window (20 R50). -/
def Request.inWindow (cfg : ClockConfig) : Request → Prop
  | .memRead addr | .memWrite addr _ => (windowOffset cfg addr).isSome = true
  | .txn _ | .call _ | .convert _ _ => True

theorem inWindow_of_programInWindow {cfg : ClockConfig} {s : State} {q : Request} {rest : List Request}
    (h : s.programInWindow cfg = true) (hp : s.program = q :: rest) : q.inWindow cfg := by
  rw [State.programInWindow, hp] at h
  cases q with
  | memRead _ | memWrite _ _ => exact h
  | txn _ | call _ | convert _ _ => trivial

/-- The start of an operation inside the window answers a next state. -/
theorem startRequest_answers {cfg : ValidConfig} {q : Request} (hq : q.inWindow cfg.clock) (s : State) :
    ∃ t, startRequest cfg q s = .next t := by
  cases q with
  | txn T =>
    obtain ⟨t, ht, -⟩ := transact_effect T s
    exact ⟨t, ht⟩
  | memRead addr =>
    obtain ⟨off, ho⟩ := Option.isSome_iff_exists.1 hq
    obtain ⟨t, ht, -⟩ := transact_effect (readDescriptor off) s
    exact ⟨t, by simp [startRequest, memRead, ho, ht]⟩
  | memWrite addr d =>
    obtain ⟨off, ho⟩ := Option.isSome_iff_exists.1 hq
    obtain ⟨t, ht, -⟩ := transact_effect (writeDescriptor off d) s
    exact ⟨t, by simp [startRequest, memWrite, ho, ht]⟩
  | call p => exact checkInit_answers p s
  | convert f x =>
    simp only [startRequest]
    split <;> exact ⟨_, rfl⟩

/-- The start of an operation never stops the machine with a fault: outside the window it is refused. -/
theorem startRequest_ne_fault (cfg : ValidConfig) (q : Request) (s : State) (r : Fault) :
    startRequest cfg q s ≠ .fault r := by
  by_cases hq : q.inWindow cfg.clock
  · obtain ⟨t, ht⟩ := startRequest_answers hq s
    simp [ht]
  · cases q with
    | txn _ | call _ | convert _ _ => exact absurd trivial hq
    | memRead addr =>
      have ho : windowOffset cfg.clock addr = none := by simpa [Request.inWindow] using hq
      simp [startRequest, memRead, ho]
    | memWrite addr d =>
      have ho : windowOffset cfg.clock addr = none := by simpa [Request.inWindow] using hq
      simp [startRequest, memWrite, ho]

/-- A turn of `FG` either answers a next state or starts an operation. -/
theorem foregroundTurn_answers_or_starts (cfg : ValidConfig) (s : State) :
    (∃ t, foregroundTurn cfg s = .next t) ∨
    ∃ q rest, s.program = q :: rest ∧ foregroundTurn cfg s = startRequest cfg q { s with program := rest } := by
  by_cases hf : s.faults = []
  · by_cases hr : s.frame = .idle
    · cases hp : s.program with
      | nil => exact .inl ⟨s, foregroundTurn_over cfg hf hr hp⟩
      | cons q rest => exact .inr ⟨q, rest, rfl, foregroundTurn_start cfg hf hr hp⟩
    · rw [foregroundTurn_running cfg hf hr]
      exact .inl (procStep_answers cfg s)
  · exact .inl ⟨s, foregroundTurn_faulted cfg hf⟩

theorem foregroundTurn_answers {cfg : ValidConfig} {s : State} (hw : s.programInWindow cfg.clock = true) :
    ∃ t, foregroundTurn cfg s = .next t := by
  obtain ht | ⟨q, rest, hp, hstart⟩ := foregroundTurn_answers_or_starts cfg s
  · exact ht
  · rw [hstart]
    exact startRequest_answers (inWindow_of_programInWindow hw hp) _

theorem foregroundTurn_ne_fault (cfg : ValidConfig) (s : State) (r : Fault) : foregroundTurn cfg s ≠ .fault r := by
  obtain ⟨t, ht⟩ | ⟨q, rest, -, hstart⟩ := foregroundTurn_answers_or_starts cfg s
  · simp [ht]
  · rw [hstart]
    exact startRequest_ne_fault cfg q _ r

end Sys2Proof.Machine
end

section
/-! O21 to O25: the states that the spec's rules allow, which every step keeps and from which none stops the machine,
and the state after reset (10 R39, 40 R107, 70 R260, R261). -/

namespace Sys2Proof.Machine

open Host (Outcome)

/-! ### Legal states -/

theorem legalClock_iff (s : State) : s.legalClock = true ↔ ∃ d, divisor s.cs = some d ∧ s.psc < d := by
  unfold State.legalClock
  cases divisor s.cs <;> simp

theorem legalFrame_iff (s : State) : s.legalFrame = true ↔ (s.frame ≠ .idle → s.initDone = true) := by
  rw [State.legalFrame, Bool.or_eq_true, beq_iff_eq, or_iff_not_imp_left]

theorem legal_iff (s : State) : s.legal = true ↔
    (∃ d, divisor s.cs = some d ∧ s.psc < d) ∧ (s.frame ≠ .idle → s.initDone = true) ∧ s.faults.Nodup := by
  rw [State.legal, Bool.and_eq_true, Bool.and_eq_true, legalClock_iff, legalFrame_iff, decide_eq_true_eq, and_assoc]

/-- An edge from a legal clock select has a divisor to reach. -/
theorem clockEdge_answers {s : State} (h : s.legalClock = true) : ∃ t, clockEdge s = .next t := by
  obtain ⟨d, hd, -⟩ := (legalClock_iff s).1 h
  unfold clockEdge
  split
  · exact ⟨_, rfl⟩
  · rw [hd]
    exact ⟨_, rfl⟩

/-- An edge keeps the phase below the divisor: it returns to 0 where it would reach it (43 R181). -/
theorem clockEdge_legalClock {s t : State} (h : clockEdge s = .next t) (hs : s.legalClock = true) :
    t.legalClock = true := by
  obtain ⟨-, rfl⟩ | ⟨d, -, hd, ⟨-, rfl⟩ | ⟨hne, rfl⟩⟩ := clockEdge_cases h
  · exact hs
  · exact (legalClock_iff _).2 ⟨d, by simpa using hd, by simpa using divisor_pos hd⟩
  · obtain ⟨d', hd', hlt⟩ := (legalClock_iff s).1 hs
    obtain rfl : d = d' := Option.some.inj (hd.symm.trans hd')
    exact (legalClock_iff _).2 ⟨d, hd, show s.psc + 1 < d by omega⟩

/-- A transaction keeps a state legal: a new clock select comes with a phase below its divisor (10 R33, 41 R133). -/
theorem BusEffect.keeps_legal {s u : State} (h : BusEffect s u) (hs : s.legal = true) : u.legal = true := by
  rw [legal_iff] at hs ⊢
  obtain ⟨hclock, hframe, hnodup⟩ := hs
  cases h with
  | read | compare | interruptEnable | flagClear => exact ⟨hclock, hframe, hnodup⟩
  | fault f => exact ⟨hclock, hframe, nodup_recordFault f _ hnodup⟩
  | clock c d hd =>
    obtain ⟨-, hsel⟩ | ⟨-, p, hp, hsel⟩ := selectClock_cases s c (divisor_pos hd) <;> rw [hsel]
    · exact ⟨hclock, hframe, hnodup⟩
    · exact ⟨⟨d, hd, hp⟩, hframe, hnodup⟩

/-- A turn of `FG` keeps a state legal: it goes into a frame only with `INIT` set. -/
theorem ForegroundEffect.keeps_legal {cfg : ValidConfig} {s t : State} (h : ForegroundEffect cfg s t)
    (hs : s.legal = true) : t.legal = true := by
  cases h with
  | rest => exact hs
  | issue T p u hf hd hu => exact (busEffect_of_transact hu).keeps_legal hs
  | advance T u f hf hr hd hu =>
    obtain ⟨-, -, hkeptInit, -⟩ := (busEffect_of_transact hu).keeps_frame
    obtain ⟨-, hframe, -⟩ := (legal_iff s).1 hs
    have hinit : u.initDone = true := hkeptInit.trans (hframe hr)
    obtain ⟨hclock, -, hnodup⟩ := (legal_iff u).1 ((busEffect_of_transact hu).keeps_legal hs)
    exact (legal_iff _).2 ⟨hclock, fun _ => hinit, hnodup⟩
  | compute p f i r d hf hd hi hr =>
    obtain ⟨hclock, hframe, hnodup⟩ := (legal_iff s).1 hs
    exact (legal_iff _).2 ⟨hclock, fun hne => (hr hne).elim id fun h => hi (hframe h), hnodup⟩
  | misuse p e =>
    obtain ⟨hclock, hframe, hnodup⟩ := (legal_iff s).1 hs
    exact (legal_iff _).2 ⟨hclock, hframe, nodup_recordFault e _ hnodup⟩

/-- Every agent's turn keeps a state legal. -/
theorem takeTurn_legal {cfg : ValidConfig} {x : Turn} {s t : State} (h : takeTurn cfg x s = .next t)
    (hs : s.legal = true) : t.legal = true := by
  obtain ⟨hclock, hframe, hnodup⟩ := (legal_iff s).1 hs
  cases x with
  | fg => exact (foregroundTurn_effect h).keeps_legal hs
  | tmr =>
    have hkept := clockEdge_keptByOthers h
    refine (legal_iff t).2 ⟨(legalClock_iff t).1 (clockEdge_legalClock h ((legalClock_iff s).2 hclock)), ?_, ?_⟩
    · rwa [hkept.frame, hkept.initDone]
    · rwa [hkept.faults]
  | isr =>
    cases h
    obtain ⟨-, -, -, ht⟩ | ⟨-, ht⟩ := serviceTurn_cases s <;> rw [ht]
    · exact (legal_iff _).2 ⟨hclock, hframe, hnodup⟩
    · exact hs
  | host a =>
    cases h
    obtain ⟨g, l, ht⟩ := hostTurn_cases a s
    rw [ht]
    exact (legal_iff _).2 ⟨hclock, hframe, hnodup⟩

/-- Taking the next turn changes the list of turns, or the draw counter, and nothing else. -/
theorem nextTurn_state (s : State) : ∃ l d, (nextTurn s).2 = { s with turns := l, draws := d } := by
  unfold nextTurn
  split
  · exact ⟨_, s.draws, rfl⟩
  · exact ⟨s.turns, _, rfl⟩

theorem nextTurn_legal {s : State} (hs : s.legal = true) : (nextTurn s).2.legal = true := by
  obtain ⟨l, d, h⟩ := nextTurn_state s
  rw [h]
  exact hs

/-- Settles O21, by what each agent's turn can do. -/
theorem stepKeepsTheStateLegal : Obligations.StepKeepsTheStateLegal := fun _ _ hs h =>
  takeTurn_legal h (nextTurn_legal hs)

/-- Settles O22: nothing is running, no fault is recorded, and the phase 0 is below every divisor. -/
theorem resetIsLegal : Obligations.ResetIsLegal :=
  (legal_iff State.reset).2 ⟨⟨1, rfl, by decide⟩, absurd rfl, List.nodup_nil⟩

/-! ### What stops a machine -/

theorem configure_of_invalid {cfg : ClockConfig} (h : validConfig cfg = false)
    (run : ValidConfig → Outcome State Fault Refusal) : configure cfg run = .refused .invalidConfiguration :=
  dif_neg (by simp [h])

theorem configure_of_valid (cfg : ValidConfig) (run : ValidConfig → Outcome State Fault Refusal) :
    configure cfg.clock run = run cfg := dif_pos cfg.valid

theorem takeTurn_ne_fault (cfg : ValidConfig) (x : Turn) {s : State} (hs : s.legalClock = true) (r : Fault) :
    takeTurn cfg x s ≠ .fault r := by
  cases x with
  | fg => exact foregroundTurn_ne_fault cfg s r
  | tmr =>
    obtain ⟨t, ht⟩ := clockEdge_answers hs
    simp [takeTurn, ht]
  | isr | host => exact nofun

theorem takeTurn_answers {cfg : ValidConfig} (x : Turn) {s : State} (hs : s.legalClock = true)
    (hw : s.programInWindow cfg.clock = true) : ∃ t, takeTurn cfg x s = .next t := by
  cases x with
  | fg => exact foregroundTurn_answers hw
  | tmr => exact clockEdge_answers hs
  | isr | host => exact ⟨_, rfl⟩

/-- Settles O23: the configuration by its check, the step by the agent whose turn it is. -/
theorem legalMachineNeverStops : Obligations.LegalMachineNeverStops := by
  refine ⟨fun cfg h run => configure_of_invalid h run, fun cfg s hs => ⟨configure_of_valid cfg, fun r => ?_, fun hw => ?_⟩⟩
  all_goals
    have hnext := nextTurn_legal hs
    have hclock : (nextTurn s).2.legalClock = true := (legalClock_iff _).2 ((legal_iff _).1 hnext).1
  · exact takeTurn_ne_fault cfg _ hclock r
  · have hwindow : (nextTurn s).2.programInWindow cfg.clock = true := by
      obtain ⟨l, d, h⟩ := nextTurn_state s
      rw [h]
      exact hw
    obtain ⟨t, ht⟩ := takeTurn_answers (nextTurn s).1 hclock hwindow
    exact ⟨t, ht, takeTurn_legal ht hnext⟩

/-! ### After reset -/

/-- Settles O24, element by element. -/
theorem resetPutsEveryElementAtItsValue : Obligations.ResetPutsEveryElementAtItsValue := fun _ =>
  ⟨_, rfl, rfl, rfl, rfl, rfl, rfl, rfl, fun r => by cases r <;> rfl⟩

/-- The registers and the prescaler phase are as reset leaves them. -/
def AtRest (s : State) : Prop := s.registers = State.reset.registers ∧ s.psc = 0

/-- With the clock stopped and the interrupt disabled, only a transaction changes a register (43 R180, 44 R200). -/
theorem takeTurn_atRest {cfg : ValidConfig} {x : Turn} {s t : State} (h : takeTurn cfg x s = .next t) (hs : AtRest s)
    (hd : x = .fg → foregroundDescriptor cfg s = none) : AtRest t := by
  obtain ⟨hregs, hpsc⟩ := hs
  have hcs : s.cs = 0#3 := congrArg Registers.cs hregs
  have hcmie : s.cmie = false := congrArg Registers.cmie hregs
  cases x with
  | fg =>
    obtain ⟨hr, hp⟩ := foregroundTurn_keeps_registers h (hd rfl)
    exact ⟨hr.trans hregs, hp.trans hpsc⟩
  | tmr =>
    obtain ⟨-, rfl⟩ | ⟨d, hne, -⟩ := clockEdge_cases h
    · exact ⟨hregs, hpsc⟩
    · exact absurd hcs hne
  | isr =>
    cases h
    obtain ⟨-, hen, -⟩ | ⟨-, ht⟩ := serviceTurn_cases s
    · simp [hcmie] at hen
    · rw [ht]
      exact ⟨hregs, hpsc⟩
  | host a =>
    cases h
    obtain ⟨hr, hp⟩ := hostTurn_registers a s
    exact ⟨hr.trans hregs, hp.trans hpsc⟩

/-- The descriptors of a run are those of its first turn and those of the rest. -/
theorem issued_cons {cfg : ValidConfig} {x : Turn} {s u : State} (ts : List Turn) (h : takeTurn cfg x s = .next u) :
    issued cfg (x :: ts) s = (if x = .fg then (foregroundDescriptor cfg s).toList else []) ++ issued cfg ts u := by
  simp [issued, h]

theorem runTurns_atRest {cfg : ValidConfig} {ts : List Turn} {s t : State} (hs : AtRest s)
    (hissued : issued cfg ts s = []) (h : runTurns cfg ts s = .next t) : AtRest t := by
  induction ts generalizing s with
  | nil => cases h; exact hs
  | cons x xs ih =>
    obtain ⟨u, hu, hrun⟩ := runTurns_cons.1 h
    rw [issued_cons xs hu, List.append_eq_nil_iff] at hissued
    obtain ⟨hnow, hlater⟩ := hissued
    refine ih (takeTurn_atRest hu hs fun hx => ?_) hlater hrun
    simpa [hx] using hnow

/-- Settles O25: at rest turn by turn, and the foreground by what the other agents keep. -/
theorem registersRestUntilForegroundActs : Obligations.RegistersRestUntilForegroundActs := by
  intro cfg ts s t hclean hissued h
  obtain ⟨-, hreset⟩ := hclean
  have hs : AtRest s := by
    rw [hreset]
    exact ⟨rfl, rfl⟩
  obtain ⟨hregs, hpsc⟩ := runTurns_atRest hs hissued h
  refine ⟨hregs, hpsc, fun hts => ?_⟩
  have hkept := runTurns_keptByOthers hts h
  rw [hkept.initDone, hkept.frame, hkept.faults, hreset]
  exact ⟨rfl, rfl, rfl⟩

end Sys2Proof.Machine
end

section
/-! O26 to O32 and O52: the derived constants of a valid configuration, the two conversions as each other's inverse up
to the remainder, and the composed reading (40 §1 to §3, 44 R210). -/

namespace Sys2Proof.Machine

/-! ### What a valid configuration gives (40 R107) -/

/-- V1 to V4 of 40 R107, as the divisions that are exact. -/
structure ExactScaling (cfg : ClockConfig) : Prop where
  cpuUs_pos : 0 < cpuUs cfg
  supported : supports cfg.prescaleSet cfg.prescale = true
  small : tier cfg = .small → ticksPerUs cfg * cfg.prescale = cpuUs cfg
  large : tier cfg = .large → usPerTick cfg * cpuUs cfg = cfg.prescale
  millisecond : tier cfg = .large → 1000 / usPerTick cfg * usPerTick cfg = 1000

theorem exactScaling_of_valid {cfg : ClockConfig} (hv : validConfig cfg = true) : ExactScaling cfg := by
  simp only [validConfig, Bool.and_eq_true, decide_eq_true_eq] at hv
  obtain ⟨⟨⟨⟨⟨hfreq, -⟩, hsupported⟩, hratio⟩, hmillisecond⟩, -⟩ := hv
  refine ⟨Nat.div_pos hfreq (by decide), hsupported, fun ht => ?_, fun ht => ?_, fun ht => ?_⟩
  · rw [ht, decide_eq_true_eq] at hratio
    exact Nat.div_mul_cancel (Nat.dvd_of_mod_eq_zero hratio)
  · rw [ht, decide_eq_true_eq] at hratio
    exact Nat.div_mul_cancel (Nat.dvd_of_mod_eq_zero hratio)
  · rw [ht, decide_eq_true_eq] at hmillisecond
    exact Nat.div_mul_cancel (Nat.dvd_of_mod_eq_zero hmillisecond)

/-- In tier `LARGE` a millisecond is a whole number of ticks. -/
theorem tpm_mul_usPerTick {cfg : ClockConfig} (hv : validConfig cfg = true) (ht : tier cfg = .large) :
    tpm cfg * usPerTick cfg = 1000 := by
  rw [tpm, scaleToTicks_large ht]
  exact (exactScaling_of_valid hv).millisecond ht

theorem tpm_small {cfg : ClockConfig} (ht : tier cfg = .small) : tpm cfg = 1000 * ticksPerUs cfg :=
  scaleToTicks_small ht 1000

/-- In tier `SMALL` a span in microseconds is representable exactly when its ticks are. -/
theorem le_maxUs_small_iff {cfg : ClockConfig} (hv : validConfig cfg = true) (ht : tier cfg = .small) (u : Nat) :
    u ≤ maxUs cfg ↔ u * ticksPerUs cfg ≤ 65535 := by
  rw [maxUs_small ht, Nat.le_div_iff_mul_le (ticksPerUs_pos hv ht)]

/-- A millisecond is at least one tick, and no more than the compare register can hold (40 R105). -/
theorem tpm_bounds {cfg : ClockConfig} (hv : validConfig cfg = true) : 1 ≤ tpm cfg ∧ tpm cfg ≤ 65535 := by
  cases ht : tier cfg with
  | large =>
    have hexact := tpm_mul_usPerTick hv ht
    have hle := Nat.le_mul_of_pos_right (tpm cfg) (usPerTick_pos hv ht)
    refine ⟨Nat.pos_of_ne_zero fun hzero => ?_, by omega⟩
    simp [hzero] at hexact
  | small =>
    have hspan := (le_maxUs_small_iff hv ht 1000).1 (thousand_le_maxUs hv)
    have hpos := ticksPerUs_pos hv ht
    rw [tpm_small ht]
    omega

/-- The ticks of a millisecond take 1000 microseconds of CPU cycles (43 R183). -/
theorem tpm_mul_prescale {cfg : ClockConfig} (hv : validConfig cfg = true) :
    tpm cfg * cfg.prescale = 1000 * cpuUs cfg := by
  have hexact := exactScaling_of_valid hv
  cases ht : tier cfg with
  | large => rw [← hexact.large ht, ← Nat.mul_assoc, tpm_mul_usPerTick hv ht]
  | small => rw [tpm_small ht, Nat.mul_assoc, hexact.small ht]

theorem clockCode_ne_zero {n : Nat} {c : ClockCode} (h : clockCode n = some c) : c ≠ 0#3 := by
  unfold clockCode at h
  split at h <;> cases h <;> decide

theorem usToTicks_of_le {cfg : ClockConfig} {u : Nat} (h : u ≤ maxUs cfg) :
    usToTicks cfg u = .ok (scaleToTicks cfg u) := convert_of_le_bound (f := .usToTicks) h

theorem ticksToUs_of_le {cfg : ClockConfig} {t : Nat} (h : t ≤ 65535) :
    ticksToUs cfg t = .ok (scaleToUs cfg t) := convert_of_le_bound (f := .ticksToUs) h

/-- Settles O26, by computing the constants: `CPU_US` is 16, so divisors 1 and 8 are of tier `SMALL`. -/
theorem derivedConstantsAtSixteenMegahertz : Obligations.DerivedConstantsAtSixteenMegahertz := by
  intro base at16
  have hcpu (p : Nat) : cpuUs (at16 p) = 16 := by simp [cpuUs, at16]
  have hprescale (p : Nat) : (at16 p).prescale = p := rfl
  have hticks (p : Nat) : ticksPerUs (at16 p) = 16 / p := by rw [ticksPerUs, hcpu, hprescale]
  have hus (p : Nat) : usPerTick (at16 p) = p / 16 := by rw [usPerTick, hcpu, hprescale]
  have htier (p : Nat) : tier (at16 p) = if p < 16 then .small else .large := by rw [tier, hcpu, hprescale]
  refine ⟨?_, by rw [hticks], by rw [hticks], by simp [hus], by simp [tpm, scaleToTicks, htier, hticks, hus]⟩
  simp [validConfig, supports, csCode, clockCode, maxUs, htier, hticks, hus, hcpu, hprescale]
  simp [at16, prescaleSet]

/-- Settles O27, by the exact divisions of a valid configuration. -/
theorem millisecondIsAnExactPeriod : Obligations.MillisecondIsAnExactPeriod := by
  intro cfg hv
  obtain ⟨hlo, hhi⟩ := tpm_bounds hv
  have hsupported := (exactScaling_of_valid hv).supported
  rw [supports, Bool.and_eq_true, Option.isSome_iff_exists] at hsupported
  obtain ⟨-, code, hcode⟩ := hsupported
  exact ⟨usToTicks_of_le (thousand_le_maxUs hv), hlo, hhi, tpm_mul_prescale hv, code, hcode, divisor_clockCode hcode,
    clockCode_ne_zero hcode⟩

/-! ### The round trips (40 §3) -/

theorem div_mul_eq_sub_mod (a b : Nat) : a / b * b = a - a % b := by
  have := Nat.div_add_mod' a b
  omega

/-- Settles O28: in `LARGE` a product divided again, in `SMALL` a quotient multiplied again. -/
theorem ticksRoundTrip : Obligations.TicksRoundTrip := by
  intro cfg t hv hle
  refine ⟨scaleToUs cfg t, ticksToUs_of_le hle, ?_⟩
  cases ht : tier cfg with
  | large =>
    have hspan : scaleToUs cfg t ≤ maxUs cfg := by
      rw [scaleToUs_large ht, maxUs_large ht]
      exact Nat.mul_le_mul_right _ hle
    refine ⟨hspan, ?_⟩
    rw [usToTicks_of_le hspan, scaleToTicks_large ht, scaleToUs_large ht, Nat.mul_div_cancel _ (usPerTick_pos hv ht)]
  | small =>
    have hspan : scaleToUs cfg t ≤ maxUs cfg := by
      rw [scaleToUs_small ht, maxUs_small ht]
      exact Nat.div_le_div_right hle
    refine ⟨hspan, ?_⟩
    rw [usToTicks_of_le hspan, scaleToTicks_small ht, scaleToUs_small ht, div_mul_eq_sub_mod]

/-- Settles O29: in `SMALL` a product divided again, in `LARGE` a quotient multiplied again. -/
theorem microsecondsRoundTrip : Obligations.MicrosecondsRoundTrip := by
  intro cfg u hv hle
  refine ⟨scaleToTicks cfg u, usToTicks_of_le hle, ?_⟩
  cases ht : tier cfg with
  | large =>
    have hrange : scaleToTicks cfg u ≤ 65535 := by
      rw [scaleToTicks_large ht]
      exact Nat.div_le_of_le_mul (by rwa [Nat.mul_comm, ← maxUs_large ht])
    refine ⟨hrange, ?_⟩
    rw [ticksToUs_of_le hrange, scaleToUs_large ht, scaleToTicks_large ht, div_mul_eq_sub_mod]
  | small =>
    have hrange : scaleToTicks cfg u ≤ 65535 := by
      rw [scaleToTicks_small ht]
      exact (le_maxUs_small_iff hv ht u).1 hle
    refine ⟨hrange, ?_⟩
    rw [ticksToUs_of_le hrange, scaleToUs_small ht, scaleToTicks_small ht, Nat.mul_div_cancel _ (ticksPerUs_pos hv ht)]

/-! ### Order and bounds (40 §3) -/

theorem scaleToTicks_mono (cfg : ClockConfig) {a b : Nat} (h : a ≤ b) : scaleToTicks cfg a ≤ scaleToTicks cfg b := by
  cases ht : tier cfg with
  | large => rw [scaleToTicks_large ht, scaleToTicks_large ht]; exact Nat.div_le_div_right h
  | small => rw [scaleToTicks_small ht, scaleToTicks_small ht]; exact Nat.mul_le_mul_right _ h

theorem scaleToUs_mono (cfg : ClockConfig) {a b : Nat} (h : a ≤ b) : scaleToUs cfg a ≤ scaleToUs cfg b := by
  cases ht : tier cfg with
  | large => rw [scaleToUs_large ht, scaleToUs_large ht]; exact Nat.mul_le_mul_right _ h
  | small => rw [scaleToUs_small ht, scaleToUs_small ht]; exact Nat.div_le_div_right h

/-- Settles O30: each conversion by whether its operand is within its bound. -/
theorem conversionsOnTheirDomains : Obligations.ConversionsOnTheirDomains := by
  intro cfg a b _ hab
  refine ⟨?_, ?_, ?_⟩
  · split
    · rename_i hb
      exact ⟨_, _, usToTicks_of_le (hab.trans hb), usToTicks_of_le hb, scaleToTicks_mono cfg hab⟩
    · exact convert_of_bound_lt (f := .usToTicks) (not_le.1 ‹_›)
  · split
    · rename_i hb
      exact ⟨_, _, ticksToUs_of_le (hab.trans hb), ticksToUs_of_le hb, scaleToUs_mono cfg hab,
        convert_of_le_bound (f := .ticksToMs) hb⟩
    · rename_i hb
      exact ⟨convert_of_bound_lt (f := .ticksToUs) (not_le.1 hb), convert_of_bound_lt (f := .ticksToMs) (not_le.1 hb)⟩
  · have hbound : b ≤ Conversion.bound cfg .msToTicks ↔ b * 1000 ≤ maxUs cfg := Nat.le_div_iff_mul_le (by decide)
    split
    · rename_i hb
      rw [convert_of_le_bound (hbound.2 hb)]
      exact (usToTicks_of_le hb).symm
    · exact convert_of_bound_lt (not_le.1 (mt hbound.1 ‹_›))

/-- The microseconds of the last tick before a match (40 §3). -/
theorem scaleToUs_last_tick {cfg : ClockConfig} (hv : validConfig cfg = true) :
    scaleToUs cfg (tpm cfg - 1) = match tier cfg with | .large => 1000 - usPerTick cfg | .small => 999 := by
  cases ht : tier cfg with
  | large => simp only [scaleToUs_large ht, Nat.sub_mul, tpm_mul_usPerTick hv ht, one_mul]
  | small =>
    have hpos := ticksPerUs_pos hv ht
    simp only [scaleToUs_small ht, tpm_small ht]
    rw [Nat.div_eq_iff hpos]
    omega

theorem scaleToUs_last_tick_le {cfg : ClockConfig} (hv : validConfig cfg = true) :
    scaleToUs cfg (tpm cfg - 1) ≤ 999 := by
  rw [scaleToUs_last_tick hv]
  cases ht : tier cfg with
  | large => exact Nat.sub_le_of_le_add (by have := usPerTick_pos hv ht; omega)
  | small => exact le_rfl

/-- Settles O31: the value at the last tick, and the conversion's order below it. -/
theorem subMillisecondTermIsBelowOneMillisecond : Obligations.SubMillisecondTermIsBelowOneMillisecond := by
  intro cfg hv
  have htpm := (tpm_bounds hv).2
  refine ⟨fun c hc => ⟨_, ticksToUs_of_le (by omega), ?_⟩, ?_⟩
  · exact (scaleToUs_mono cfg hc).trans (scaleToUs_last_tick_le hv)
  · exact (ticksToUs_of_le (by omega)).trans (congrArg Except.ok (scaleToUs_last_tick hv))

/-- Settles O32: both factors are 1, and so is every formula of either tier. -/
theorem equalTierIsUnobservable : Obligations.EqualTierIsUnobservable := by
  intro cfg heq hpos
  have htier : tier cfg = .large := by simp [tier, heq]
  have hlarge : usPerTick cfg = 1 := by rw [usPerTick, heq, Nat.div_self hpos]
  have hsmall : ticksPerUs cfg = 1 := by rw [ticksPerUs, heq, Nat.div_self hpos]
  have hmax : maxUs cfg = 65535 := by rw [maxUs_large htier, hlarge]
  have hticks (n : Nat) : scaleToTicks cfg n = n := by rw [scaleToTicks_large htier, hlarge, Nat.div_one]
  have hus (n : Nat) : scaleToUs cfg n = n := by rw [scaleToUs_large htier, hlarge, Nat.mul_one]
  refine ⟨htier, hlarge, hsmall, by rw [hmax, hlarge], by rw [hmax, hsmall], fun n => ?_⟩
  simp [hticks, hus, hlarge, hsmall, usToTicks, ticksToUs, hmax]

/-- Settles O52: the accumulator's wrap is a multiple of 2^32 microseconds. -/
theorem microsecondReadingWrapsCleanly : Obligations.MicrosecondReadingWrapsCleanly := by
  intro served sub
  refine BitVec.eq_of_toNat_eq ?_
  simp only [composeMicros, BitVec.toNat_ofNat]
  omega

end Sys2Proof.Machine
end

section
/-! O39 to O46 and O58: the tick, the input-clock edge, the next match, and what a turn of each agent leaves of the
counter and the flag (43 §1 to §3, 44 R200, 60 R233). -/

namespace Sys2Proof.Machine

open Host (Outcome)

/-! ### One tick and many (43 R182 to R184) -/

theorem half_add_one (v : Half) : v + 1#16 = BitVec.ofNat 16 ((v.toNat + 1) % 2 ^ 16) :=
  BitVec.eq_of_toNat_eq (by simp)

theorem word_add_one (v : Word) : v + 1#32 = BitVec.ofNat 32 ((v.toNat + 1) % 2 ^ 32) :=
  BitVec.eq_of_toNat_eq (by simp)

theorem tick_of_match {s : State} (h : s.cnt = s.cmp) : tick s = { s with cnt := 0#16, cmf := true } := by
  obtain ⟨-, ht⟩ | ⟨hne, -⟩ := tick_cases s
  · exact ht
  · exact absurd h hne

theorem tick_of_ne {s : State} (h : s.cnt ≠ s.cmp) : tick s = { s with cnt := s.cnt + 1#16 } := by
  obtain ⟨heq, -⟩ | ⟨-, ht⟩ := tick_cases s
  · exact absurd heq h
  · exact ht

/-- Settles O41, by whether the counter is at its target. -/
theorem tickCountsOrClears : Obligations.TickCountsOrClears := by
  intro s
  split
  · exact tick_of_match ‹_›
  · rw [tick_of_ne ‹_›, half_add_one]

/-- The last of `n + 1` ticks. -/
theorem ticks_succ (n : Nat) (s : State) : ticks (n + 1) s = tick (ticks n s) := by
  induction n generalizing s with
  | zero => rfl
  | succ n ih => exact ih (tick s)

@[simp] theorem ticks_cmp (n : Nat) (s : State) : (ticks n s).cmp = s.cmp := by
  induction n with
  | zero => rfl
  | succ n ih => rw [ticks_succ, tick_cmp, ih]

/-- Without a match on the way, `n` ticks only count. -/
theorem ticks_of_no_match {n : Nat} {s : State} (h : ∀ i < n, s.cnt + BitVec.ofNat 16 i ≠ s.cmp) :
    ticks n s = { s with cnt := s.cnt + BitVec.ofNat 16 n } := by
  induction n with
  | zero => simp [ticks]
  | succ n ih =>
    have hbefore := ih fun i hi => h i (by omega)
    have hne : (ticks n s).cnt ≠ (ticks n s).cmp := by
      rw [hbefore]
      exact h n (by omega)
    rw [ticks_succ, tick_of_ne hne, hbefore]
    simp [BitVec.ofNat_add, BitVec.add_assoc]

/-- The number of ticks up to and with the next match (43 R184). -/
def nextMatch (s : State) : Nat :=
  if s.cmp.toNat < s.cnt.toNat then 65537 - s.cnt.toNat + s.cmp.toNat else s.cmp.toNat - s.cnt.toNat + 1

/-- `i` ticks on, an unmatched counter is at its target exactly when the match is the next tick. -/
theorem cnt_add_eq_cmp_iff {s : State} {i : Nat} (hi : i < nextMatch s) :
    s.cnt + BitVec.ofNat 16 i = s.cmp ↔ i + 1 = nextMatch s := by
  have hcnt := s.cnt.isLt
  have hcmp := s.cmp.isLt
  rw [← BitVec.toNat_inj, BitVec.toNat_add, BitVec.toNat_ofNat]
  unfold nextMatch at hi ⊢
  split at hi <;> simp only [*, reduceIte] <;> omega

/-- Before the next match the ticks only count. -/
theorem ticks_below_nextMatch {s : State} {j : Nat} (hj : j < nextMatch s) :
    ticks j s = { s with cnt := s.cnt + BitVec.ofNat 16 j } :=
  ticks_of_no_match fun i hi h => by
    have := (cnt_add_eq_cmp_iff (by omega)).1 h
    omega

theorem ticks_nextMatch (s : State) : ticks (nextMatch s) s = { s with cnt := 0#16, cmf := true } := by
  obtain ⟨n, hn⟩ : ∃ n, nextMatch s = n + 1 := ⟨nextMatch s - 1, by unfold nextMatch; split <;> omega⟩
  have hbefore := ticks_below_nextMatch (s := s) (j := n) (by omega)
  have hmatch : (ticks n s).cnt = (ticks n s).cmp := by
    rw [hbefore]
    exact (cnt_add_eq_cmp_iff (by omega)).2 hn.symm
  rw [hn, ticks_succ, tick_of_match hmatch, hbefore]

/-- Settles O42: up to the tick before the match the ticks only count, and the next one matches. -/
theorem nextMatchTick : Obligations.NextMatchTick := by
  intro s
  refine ⟨fun j hj => ?_, fun j hj => ?_, ticks_nextMatch s⟩
  · have hlt : j + 1 < nextMatch s := hj
    rw [ticks_below_nextMatch (by omega)]
    intro h
    exact absurd ((cnt_add_eq_cmp_iff (by omega)).1 h) (by omega)
  · rw [ticks_below_nextMatch hj]
    refine ⟨rfl, ?_⟩
    rw [BitVec.ofNat_add, BitVec.ofNat_toNat, BitVec.setWidth_eq]

/-! ### The period (43 R183) -/

/-- Counting on mod `m + 1` returns to 0 after `m`. -/
theorem succ_mod_succ (n m : Nat) : (n + 1) % (m + 1) = if n % (m + 1) = m then 0 else n % (m + 1) + 1 := by
  have hlt : n % (m + 1) < m + 1 := Nat.mod_lt n (Nat.succ_pos m)
  rw [← Nat.mod_add_mod]
  split
  · rename_i h
    rw [h, Nat.mod_self]
  · exact Nat.mod_eq_of_lt (by omega)

theorem ticks_cnt_of_zero {s : State} (hs : s.cnt = 0#16) (n : Nat) :
    (ticks n s).cnt.toNat = n % (s.cmp.toNat + 1) := by
  induction n with
  | zero => simp [ticks, hs]
  | succ n ih =>
    have hcmp := s.cmp.isLt
    rw [ticks_succ, succ_mod_succ, ← ih]
    split
    · rename_i h
      rw [tick_of_match (BitVec.eq_of_toNat_eq (by rw [h, ticks_cmp]))]
      rfl
    · rename_i h
      have hlt : n % (s.cmp.toNat + 1) < s.cmp.toNat + 1 := Nat.mod_lt n (Nat.succ_pos _)
      rw [tick_of_ne fun heq => h (by rw [heq, ticks_cmp]), BitVec.toNat_add]
      exact Nat.mod_eq_of_lt (by simp; omega)

theorem ticks_cmf_of_zero {s : State} (hs : s.cnt = 0#16) (n : Nat) :
    (ticks n s).cmf = (s.cmf || decide (s.cmp.toNat + 1 ≤ n)) := by
  induction n with
  | zero => simp [ticks]
  | succ n ih =>
    have hcnt := ticks_cnt_of_zero hs n
    rw [ticks_succ]
    by_cases h : (ticks n s).cnt = (ticks n s).cmp
    · have hle : s.cmp.toNat ≤ n := by
        have := Nat.mod_le n (s.cmp.toNat + 1)
        rw [← hcnt, h, ticks_cmp] at this
        exact this
      rw [tick_of_match h]
      simp [hle]
    · have hne : s.cmp.toNat ≠ n := by
        intro heq
        rw [← heq, Nat.mod_eq_of_lt (Nat.lt_succ_self _), heq] at hcnt
        exact h (BitVec.eq_of_toNat_eq (by rw [hcnt, ticks_cmp, heq]))
      rw [tick_of_ne h, ih]
      congr 2
      exact propext (by omega)

/-- Settles O43, by induction on the ticks. -/
theorem counterIsPeriodic : Obligations.CounterIsPeriodic := fun _ n hs =>
  ⟨ticks_cnt_of_zero hs n, ticks_cmf_of_zero hs n⟩

/-! ### The input-clock edge (43 R180, R181) -/

theorem clockEdge_of_divisor {s : State} {d : Nat} (hcs : s.cs ≠ 0#3) (hd : divisor s.cs = some d) :
    clockEdge s = .next (if s.psc + 1 = d then tick { s with psc := 0 } else { s with psc := s.psc + 1 }) := by
  rw [clockEdge, if_neg hcs, hd]

/-- Settles O39: no clock, no step; with one, the edge, which keeps the clock select legal. -/
theorem timerStepsExactlyWhileClocked : Obligations.TimerStepsExactlyWhileClocked := by
  refine fun cfg s => ⟨fun h => if_pos h, fun hcs hlegal => ?_⟩
  obtain ⟨d, hd, -⟩ := (legalClock_iff s).1 hlegal
  have hedge := clockEdge_of_divisor hcs hd
  exact ⟨d, _, hd, hedge, (clockEdge_keptByOthers hedge).cs, clockEdge_legalClock hedge hlegal, rfl⟩

/-- Up to the divisor the edges only advance the phase. -/
theorem runTurns_edges_below (cfg : ValidConfig) {s : State} {d : Nat} (hcs : s.cs ≠ 0#3) (hd : divisor s.cs = some d)
    {j : Nat} (hj : s.psc + j < d) :
    runTurns cfg (List.replicate j .tmr) s = .next { s with psc := s.psc + j } := by
  induction j generalizing s with
  | zero => rfl
  | succ j ih =>
    have hedge := clockEdge_of_divisor hcs hd
    rw [if_neg (by omega)] at hedge
    refine runTurns_cons.2 ⟨_, hedge, ?_⟩
    rw [ih (s := { s with psc := s.psc + 1 }) hcs hd (show s.psc + 1 + j < d by omega)]
    simp [Nat.add_assoc, Nat.add_comm 1 j]

/-- The first tick is the one of the edge that reaches the divisor. -/
theorem runTurns_edges_to_tick (cfg : ValidConfig) {s : State} {d : Nat} (hcs : s.cs ≠ 0#3)
    (hd : divisor s.cs = some d) (hpsc : s.psc < d) :
    runTurns cfg (List.replicate (d - s.psc) .tmr) s = .next (tick { s with psc := 0 }) := by
  obtain ⟨j, hj⟩ : ∃ j, d - s.psc = j + 1 := ⟨d - s.psc - 1, by omega⟩
  have hlast := clockEdge_of_divisor (s := { s with psc := s.psc + j }) hcs hd
  rw [if_pos (show s.psc + j + 1 = d by omega)] at hlast
  rw [hj, List.replicate_succ']
  exact runTurns_append.2 ⟨_, runTurns_edges_below cfg hcs hd (by omega), runTurns_cons.2 ⟨_, hlast, rfl⟩⟩

/-- A write that changes the clock select leaves the phase below the new divisor (41 R133). -/
theorem psc_lt_of_new_code {data : Word} {u s : State} {d : Nat} (h : exec (.wrCtrl data) u = .next s)
    (hne : s.cs ≠ u.cs) (hd : divisor s.cs = some d) : s.psc < d := by
  cases busEffect_of_exec h with
  | read | fault | compare | interruptEnable | flagClear => exact absurd rfl hne
  | clock c d' hd' =>
    obtain ⟨-, hsel⟩ | ⟨-, p, hp, hsel⟩ := selectClock_cases u c (divisor_pos hd')
    · simp [hsel] at hne
    · obtain rfl : d' = d := by simpa [hd'] using hd
      simpa [hsel] using hp

/-- Settles O40: one edge from its rule, the first tick by counting the edges before it. -/
theorem inputClockEdge : Obligations.InputClockEdge := by
  intro cfg s d hcs hd
  refine ⟨?_, clockEdge_of_divisor hcs hd, fun data u h hne => psc_lt_of_new_code h hne hd, fun hpsc => ⟨?_, by omega,
    by omega, fun j hj => runTurns_edges_below cfg hcs hd (by omega), runTurns_edges_to_tick cfg hcs hd hpsc⟩⟩
  · have htable := mem_table_of_divisor hd
    simp only [List.mem_cons, Prod.mk.injEq, List.not_mem_nil, or_false] at htable ⊢
    omega
  · rintro rfl
    have hzero : s.psc = 0 := by omega
    have hedge := clockEdge_of_divisor hcs hd
    rw [if_pos (by omega), show { s with psc := 0 } = s by rw [← hzero]] at hedge
    exact hedge

/-- Ticks do not see the prescaler phase. -/
theorem tick_withPsc (s : State) (p : Nat) : tick { s with psc := p } = { tick s with psc := p } := by
  unfold tick
  split <;> rfl

theorem ticks_withPsc (n : Nat) (s : State) (p : Nat) : ticks n { s with psc := p } = { ticks n s with psc := p } := by
  induction n with
  | zero => rfl
  | succ n ih => rw [ticks_succ, ticks_succ, ih, tick_withPsc]

theorem clockEdges_succ {n : Nat} {s t : State} (h : clockEdge s = .next t) :
    clockEdges (n + 1) s = clockEdges n t := by
  rw [clockEdges, h]

/-- Settles O45, by induction on the edges, by whether the first completes a tick. -/
theorem edgesRefineTicks : Obligations.EdgesRefineTicks := by
  intro s d n hcs hd hpsc
  induction n generalizing s with
  | zero => simp [clockEdges, Nat.div_eq_of_lt hpsc, Nat.mod_eq_of_lt hpsc, ticks]
  | succ n ih =>
    rw [clockEdges_succ (clockEdge_of_divisor hcs hd)]
    split
    · rename_i hlast
      rw [ih (tick { s with psc := 0 }) (by simpa using hcs) (by simpa using hd) (by simpa using divisor_pos hd)]
      have hsum : s.psc + (n + 1) = n + d := by omega
      rw [hsum, Nat.add_div_right _ (divisor_pos hd), Nat.add_mod_right, tick_withPsc, ticks_withPsc]
      simp [ticks]
    · rw [ih { s with psc := s.psc + 1 } hcs hd (show s.psc + 1 < d by omega), ticks_withPsc]
      simp [Nat.add_assoc, Nat.add_comm 1 n]

/-! ### What a turn of `FG` leaves of the timer and the interrupt -/

/-- A turn of `FG` writes neither the counter nor the accumulator nor what the host owns; it never sets the flag; and
it leaves the phase alone unless it changes the clock select (41 R133 to R143). -/
theorem foregroundTurn_keeps {cfg : ValidConfig} {s t : State} (h : foregroundTurn cfg s = .next t) :
    t.cnt = s.cnt ∧ t.ms = s.ms ∧ t.gie = s.gie ∧ t.savedGie = s.savedGie ∧ (t.cmf = true → s.cmf = true) ∧
    (t.cs = s.cs → t.psc = s.psc) := by
  have bus {s u : State} (hu : BusEffect s u) : (u.cmf = true → s.cmf = true) ∧ (u.cs = s.cs → u.psc = s.psc) := by
    cases hu with
    | read | fault | compare | interruptEnable => exact ⟨id, fun _ => rfl⟩
    | flagClear b => exact ⟨by cases b <;> simp [flagAfterClear], fun _ => rfl⟩
    | clock c d hd =>
      obtain ⟨-, hsel⟩ | ⟨hne, p, -, hsel⟩ := selectClock_cases s c (divisor_pos hd) <;> rw [hsel]
      · exact ⟨id, fun _ => rfl⟩
      · exact ⟨id, fun heq => absurd heq hne⟩
  cases foregroundTurn_effect h with
  | rest | compute | misuse => exact ⟨rfl, rfl, rfl, rfl, id, fun _ => rfl⟩
  | issue T p _ _ _ hu | advance T _ _ _ _ _ hu =>
    have he := busEffect_of_transact hu
    obtain ⟨hcnt, hms, -, hgie, -, -, -, -, hsaved⟩ := he.keeps_frame
    obtain ⟨hcmf, hpsc⟩ := bus he
    exact ⟨hcnt, hms, hgie, hsaved, hcmf, hpsc⟩

/-- A counter at or below its target counts up to it and then returns to 0. -/
theorem tick_cnt_le {s : State} (hle : s.cnt.toNat ≤ s.cmp.toNat) : (tick s).cnt.toNat ≤ s.cmp.toNat := by
  by_cases heq : s.cnt = s.cmp
  · rw [tick_of_match heq]
    exact Nat.zero_le _
  · have hne : s.cnt.toNat ≠ s.cmp.toNat := fun h => heq (BitVec.eq_of_toNat_eq h)
    rw [tick_of_ne heq, BitVec.toNat_add]
    exact (Nat.mod_le _ _).trans (show s.cnt.toNat + 1 ≤ s.cmp.toNat by omega)

/-- Settles O44: only the timer moves the counter, and at the target it returns to 0. -/
theorem counterStaysBelowTheTarget : Obligations.CounterStaysBelowTheTarget := by
  intro cfg x s t h hle hcmp
  rw [hcmp]
  cases x with
  | fg => rwa [(foregroundTurn_keeps h).1]
  | tmr =>
    obtain ⟨-, rfl⟩ | ⟨d, -, -, ⟨-, rfl⟩ | ⟨-, rfl⟩⟩ := clockEdge_cases h
    · exact hle
    · exact tick_cnt_le (s := { s with psc := 0 }) hle
    · exact hle
  | isr =>
    cases h
    obtain ⟨-, -, -, ht⟩ | ⟨-, ht⟩ := serviceTurn_cases s <;> rwa [ht]
  | host a =>
    cases h
    obtain ⟨g, l, ht⟩ := hostTurn_cases a s
    rwa [ht]

/-- Settles O46, by its trigger. -/
theorem serviceStep : Obligations.ServiceStep := by
  intro cfg s
  rw [← word_add_one]
  obtain ⟨hg, hi, hf, ht⟩ | ⟨hoff, ht⟩ := serviceTurn_cases s
  · rw [if_pos ⟨hg, hi, hf⟩, takeTurn, ht]
  · rw [if_neg hoff, takeTurn, ht]

/-! ### After a fault (60 R233) -/

theorem serviceTurn_withFaults (s : State) (l : List FaultRecord) :
    serviceTurn { s with faults := l } = { serviceTurn s with faults := l } := by
  by_cases hen : s.serviceEnabled = true
  · rw [serviceTurn, serviceTurn, if_pos hen]
    exact if_pos hen
  · rw [serviceTurn, serviceTurn, if_neg hen]
    exact if_neg hen

/-- A turn of another agent than `FG` does not see the fault record. -/
theorem takeTurn_withFaults {cfg : ValidConfig} {x : Turn} {s t : State} (hx : x ≠ .fg)
    (h : takeTurn cfg x s = .next t) (l : List FaultRecord) :
    takeTurn cfg x { s with faults := l } = .next { t with faults := l } := by
  cases x with
  | fg => exact absurd rfl hx
  | tmr =>
    obtain ⟨hcs, rfl⟩ | ⟨d, hcs, hd, ⟨hpsc, rfl⟩ | ⟨hpsc, rfl⟩⟩ := clockEdge_cases h
    · exact if_pos hcs
    · refine (clockEdge_of_divisor (s := { s with faults := l }) hcs hd).trans (congrArg Outcome.next ?_)
      rw [if_pos hpsc]
      unfold tick
      split <;> rfl
    · exact (clockEdge_of_divisor (s := { s with faults := l }) hcs hd).trans (congrArg Outcome.next (if_neg hpsc))
  | isr =>
    cases h
    exact congrArg Outcome.next (serviceTurn_withFaults s l)
  | host a =>
    cases h
    refine congrArg Outcome.next ?_
    cases a with
    | setGie | suspend => rfl
    | restore =>
      unfold hostTurn
      cases hl : s.savedGie <;> simp [hl]

/-- Settles O58: `FG` stands still, and no other agent reads or writes the record. -/
theorem faultStopsOnlyTheForeground : Obligations.FaultStopsOnlyTheForeground := by
  intro cfg x s t hf h
  by_cases hx : x = .fg
  · subst hx
    cases (foregroundTurn_faulted cfg hf).symm.trans h
    simp
  · rw [if_neg hx]
    exact ⟨(takeTurn_keptByOthers hx h).faults, takeTurn_withFaults hx h []⟩

end Sys2Proof.Machine
end

section
/-! O38, O47 to O49, O53, O59 and O60: the accounting of ticks, matches and services along a run (44 §1, §3, 60 §2, 70
§4). -/

namespace Sys2Proof.Machine

/-! ### Sums along a run -/

theorem tally_cons {cfg : ValidConfig} (w : Turn → State → State → Nat) {x : Turn} {s u : State} (xs : List Turn)
    (h : takeTurn cfg x s = .next u) : tally cfg w (x :: xs) s = w x s u + tally cfg w xs u := by
  rw [tally, h]

/-- A turn that weighs no more in one sum than in another makes the sums so. -/
theorem tally_le_tally {cfg : ValidConfig} {w w' : Turn → State → State → Nat}
    (hturn : ∀ x s t, takeTurn cfg x s = .next t → w x s t ≤ w' x s t) {ts : List Turn} {s t : State}
    (h : runTurns cfg ts s = .next t) : tally cfg w ts s ≤ tally cfg w' ts s := by
  induction ts generalizing s with
  | nil => exact le_rfl
  | cons x xs ih =>
    obtain ⟨u, hu, hrun⟩ := runTurns_cons.1 h
    rw [tally_cons w xs hu, tally_cons w' xs hu]
    exact Nat.add_le_add (hturn x s u hu) (ih hrun)

/-! ### The accumulator (44 R201) -/

theorem serviceEnabled_iff (s : State) : s.serviceEnabled = true ↔ s.gie = true ∧ s.cmie = true ∧ s.cmf = true := by
  simp [State.serviceEnabled, serviceTrigger, irqLevel]

/-- Only a service step writes `MS`. -/
theorem takeTurn_ms {cfg : ValidConfig} {x : Turn} {s t : State} (h : takeTurn cfg x s = .next t) :
    t.ms = s.ms + BitVec.ofNat 32 (serviceWeight x s t) := by
  cases x with
  | fg =>
    obtain ⟨-, hms, -⟩ := foregroundTurn_keeps h
    simp [serviceWeight, hms]
  | tmr =>
    obtain ⟨-, -, -, hms, -⟩ := clockEdge_registers h
    simp [serviceWeight, hms]
  | isr =>
    cases h
    obtain ⟨hg, hi, hf, ht⟩ | ⟨hoff, ht⟩ := serviceTurn_cases s <;> rw [ht]
    · simp [serviceWeight, (serviceEnabled_iff s).2 ⟨hg, hi, hf⟩]
    · simp [serviceWeight, mt (serviceEnabled_iff s).1 hoff]
  | host a =>
    cases h
    obtain ⟨g, l, ht⟩ := hostTurn_cases a s
    simp [serviceWeight, ht]

/-- Settles O47, turn by turn. -/
theorem accumulatorCountsServices : Obligations.AccumulatorCountsServices := by
  intro cfg ts s t h
  induction ts generalizing s with
  | nil => cases h; simp [tally]
  | cons x xs ih =>
    obtain ⟨u, hu, hrun⟩ := runTurns_cons.1 h
    rw [ih u hrun, takeTurn_ms hu, tally_cons _ xs hu, BitVec.ofNat_add, BitVec.add_assoc]

/-! ### The flag, turn by turn (44 R205) -/

theorem tick_cmf (s : State) : (tick s).cmf = (s.cmf || compareMatch s.cnt s.cmp) := by
  obtain ⟨hm, ht⟩ | ⟨hm, ht⟩ := tick_cases s <;> simp [ht, compareMatch, hm]

/-- The flag after an edge: set by a match, else as before (43 R182, R187). -/
theorem clockEdge_cmf {s t : State} (h : clockEdge s = .next t) : t.cmf = (s.cmf || s.edgeMatches) := by
  obtain ⟨hcs, rfl⟩ | ⟨d, hcs, hd, ⟨hpsc, rfl⟩ | ⟨hpsc, rfl⟩⟩ := clockEdge_cases h
  · simp [State.edgeMatches, State.edgeTicks, hcs]
  · have hticks : s.edgeTicks = true := by simp [State.edgeTicks, hcs, hd, hpsc]
    rw [tick_cmf, State.edgeMatches, hticks, Bool.true_and]
  · have hticks : s.edgeTicks = false := by simp [State.edgeTicks, hd, Ne.symm hpsc]
    simp [State.edgeMatches, hticks]

/-- The flag after a turn of the interrupt: taken by a service, else as before (44 R200). -/
theorem serviceTurn_cmf (s : State) : (serviceTurn s).cmf = (s.cmf && !s.serviceEnabled) := by
  obtain ⟨hg, hi, hf, ht⟩ | ⟨hoff, ht⟩ := serviceTurn_cases s <;> rw [ht]
  · simp [(serviceEnabled_iff s).2 ⟨hg, hi, hf⟩]
  · simp [mt (serviceEnabled_iff s).1 hoff]

theorem hostTurn_cmf (a : HostAct) (s : State) : (hostTurn a s).cmf = s.cmf :=
  congrArg Registers.cmf (hostTurn_registers a s).1

/-- One turn's part in the balance of matches: what sets the flag is a match, what clears it a service or a write. -/
theorem takeTurn_balance {cfg : ValidConfig} {x : Turn} {s t : State} (h : takeTurn cfg x s = .next t) :
    serviceWeight x s t + t.cmf.toNat + mergedWeight x s t + lostWeight x s t = matchWeight x s t + s.cmf.toNat := by
  cases x with
  | fg =>
    obtain ⟨-, -, -, -, hkeeps, -⟩ := foregroundTurn_keeps h
    cases hs : s.cmf <;> cases ht : t.cmf <;> simp_all [serviceWeight, mergedWeight, lostWeight, matchWeight]
  | tmr =>
    rw [clockEdge_cmf h]
    cases hs : s.cmf <;> cases hm : s.edgeMatches <;> simp [serviceWeight, mergedWeight, lostWeight, matchWeight, hs, hm]
  | isr =>
    cases h
    rw [serviceTurn_cmf]
    by_cases hen : s.serviceEnabled = true
    · obtain ⟨-, -, hcmf⟩ := (serviceEnabled_iff s).1 hen
      simp [serviceWeight, mergedWeight, lostWeight, matchWeight, hen, hcmf]
    · simp [serviceWeight, mergedWeight, lostWeight, matchWeight, hen]
  | host a =>
    cases h
    rw [hostTurn_cmf]
    simp [serviceWeight, mergedWeight, lostWeight, matchWeight]

/-- Settles O48: the balance of each turn, added up. -/
theorem everyMatchIsAccountedFor : Obligations.EveryMatchIsAccountedFor := by
  intro cfg ts s t h
  induction ts generalizing s with
  | nil => cases h; simp [tally]
  | cons x xs ih =>
    obtain ⟨u, hu, hrun⟩ := runTurns_cons.1 h
    have hturn := takeTurn_balance hu
    have hrest := ih u hrun
    simp only [tally_cons _ xs hu]
    omega

/-! ### The accounting hypothesis (44 R206) -/

/-- A turn of `FG` that clears the flag issues a write of `IFR`. -/
theorem flagWrite_of_cleared {cfg : ValidConfig} {s t : State} (h : foregroundTurn cfg s = .next t)
    (hne : t.cmf ≠ s.cmf) : ∃ T, foregroundDescriptor cfg s = some T ∧ isFlagWrite T = true := by
  cases hd : foregroundDescriptor cfg s with
  | none => exact absurd (congrArg Registers.cmf (foregroundTurn_keeps_registers h hd).1) hne
  | some T =>
    refine ⟨T, rfl, ?_⟩
    obtain ⟨u, hu, hregs, -⟩ := foregroundTurn_registers_of_transact h hd
    have hcmf : t.cmf = u.cmf := congrArg Registers.cmf hregs
    unfold transact at hu
    split at hu
    · cases hu
      exact absurd hcmf hne
    · rename_i i hdecode
      obtain ⟨-, -, -, -, hown, -⟩ := exec_writes_own_register hu
      obtain ⟨d, rfl⟩ := hown (hcmf ▸ hne)
      simp [isFlagWrite, hdecode]

theorem lostWeight_le_flagWriteWeight (cfg : ValidConfig) (x : Turn) (s t : State) (h : takeTurn cfg x s = .next t) :
    lostWeight x s t ≤ flagWriteWeight cfg x s t := by
  unfold lostWeight
  split
  · rename_i hlost
    obtain ⟨rfl, hs, ht⟩ := hlost
    obtain ⟨T, hd, hT⟩ := flagWrite_of_cleared h (by simp [hs, ht])
    simp [flagWriteWeight, hd, hT]
  · exact Nat.zero_le _

/-- Under prompt service no match finds the flag set: a set flag is owed its service (70 R272). -/
theorem merged_of_prompt {cfg : ValidConfig} {ts : List Turn} {s t : State} {owed : Bool}
    (hprompt : promptFrom cfg owed ts s = true) (howed : s.cmf = true → owed = true)
    (h : runTurns cfg ts s = .next t) : tally cfg mergedWeight ts s = 0 := by
  induction ts generalizing s owed with
  | nil => rfl
  | cons x xs ih =>
    obtain ⟨u, hu, hrun⟩ := runTurns_cons.1 h
    simp only [promptFrom, hu] at hprompt
    rw [tally_cons _ xs hu, Nat.add_eq_zero_iff]
    split at hprompt
    · rename_i hmatch
      obtain ⟨hnot, hlater⟩ := Bool.and_eq_true_iff.1 hprompt
      have hflag : s.cmf ≠ true := fun hs => by simp [howed hs] at hnot
      exact ⟨by simp [mergedWeight, hflag], ih hlater (fun _ => rfl) hrun⟩
    · rename_i hmatch
      have hzero : mergedWeight x s u = 0 := if_neg fun ⟨htmr, hm, _⟩ => hmatch ⟨htmr, hm⟩
      split at hprompt
      · rename_i hservice
        obtain ⟨rfl, hen⟩ := hservice
        cases hu
        exact ⟨hzero, ih hprompt (by simp [serviceTurn_cmf, hen]) hrun⟩
      · refine ⟨hzero, ih hprompt (fun hflag => howed ?_) hrun⟩
        have hbalance := takeTurn_balance hu
        have hnone : matchWeight x s u = 0 := if_neg hmatch
        by_contra hs
        simp [hnone, Bool.eq_false_iff.2 hs, hflag] at hbalance

/-- Settles O49: without a flag write nothing is lost, and with prompt service nothing merges. -/
theorem accHypothesisLosesNoMatch : Obligations.AccHypothesisLosesNoMatch := by
  intro cfg ts s t hacc h
  obtain ⟨hwrites, hprompt⟩ := hacc
  have hlost := tally_le_tally (lostWeight_le_flagWriteWeight cfg) h
  have hmerged := merged_of_prompt hprompt id h
  have hbalance := everyMatchIsAccountedFor cfg ts s t h
  omega

/-! ### The counter along a run without the foreground -/

/-- A tick's effect on the counter and the flag depends on nothing else but the target. -/
theorem tick_counter_congr {s t : State} (hcnt : t.cnt = s.cnt) (hcmp : t.cmp = s.cmp) (hcmf : t.cmf = s.cmf) :
    (tick t).cnt = (tick s).cnt ∧ (tick t).cmf = (tick s).cmf := by
  unfold tick
  rw [hcnt, hcmp, hcmf]
  split <;> exact ⟨rfl, rfl⟩

theorem ticks_counter_congr {s t : State} (hcnt : t.cnt = s.cnt) (hcmp : t.cmp = s.cmp) (hcmf : t.cmf = s.cmf)
    (n : Nat) : (ticks n t).cnt = (ticks n s).cnt ∧ (ticks n t).cmf = (ticks n s).cmf := by
  induction n with
  | zero => exact ⟨hcnt, hcmf⟩
  | succ n ih =>
    obtain ⟨ihcnt, ihcmf⟩ := ih
    rw [ticks_succ, ticks_succ]
    exact tick_counter_congr ihcnt (by rw [ticks_cmp, ticks_cmp, hcmp]) ihcmf

/-- An edge is a tick or none, as far as the counter and the flag go. -/
theorem clockEdge_ticks {cfg : ValidConfig} {s t : State} (h : takeTurn cfg .tmr s = .next t) :
    t.cnt = (ticks (tickWeight .tmr s t) s).cnt ∧ t.cmf = (ticks (tickWeight .tmr s t) s).cmf := by
  obtain ⟨hcs, rfl⟩ | ⟨d, hcs, hd, ⟨hpsc, rfl⟩ | ⟨hpsc, rfl⟩⟩ := clockEdge_cases h
  · have hticks : t.edgeTicks = false := by simp [State.edgeTicks, hcs]
    simp [tickWeight, hticks, ticks]
  · have hticks : s.edgeTicks = true := by simp [State.edgeTicks, hcs, hd, hpsc]
    simpa [tickWeight, hticks, ticks] using tick_counter_congr (s := s) (t := { s with psc := 0 }) rfl rfl rfl
  · have hticks : s.edgeTicks = false := by simp [State.edgeTicks, hd, Ne.symm hpsc]
    simp [tickWeight, hticks, ticks]

/-- With the interrupt disabled, a turn of another agent than `FG` moves the counter and the flag by its ticks. -/
theorem takeTurn_ticks_of_disabled {cfg : ValidConfig} {x : Turn} {s t : State} (hx : x ≠ .fg) (hcmie : s.cmie = false)
    (h : takeTurn cfg x s = .next t) :
    t.cnt = (ticks (tickWeight x s t) s).cnt ∧ t.cmf = (ticks (tickWeight x s t) s).cmf := by
  cases x with
  | fg => exact absurd rfl hx
  | tmr => exact clockEdge_ticks h
  | isr =>
    cases h
    obtain ⟨-, hen, -⟩ | ⟨-, ht⟩ := serviceTurn_cases s
    · simp [hcmie] at hen
    · simp [tickWeight, ht, ticks]
  | host a =>
    cases h
    obtain ⟨g, l, ht⟩ := hostTurn_cases a s
    simp [tickWeight, ht, ticks]

theorem ticks_add (m n : Nat) (s : State) : ticks (m + n) s = ticks n (ticks m s) := by
  induction n with
  | zero => rfl
  | succ n ih => rw [← Nat.add_assoc, ticks_succ, ih, ticks_succ]

theorem runTurns_ticks_of_disabled {cfg : ValidConfig} {ts : List Turn} {s t : State} (hts : ∀ x ∈ ts, x ≠ .fg)
    (hcmie : s.cmie = false) (h : runTurns cfg ts s = .next t) :
    t.cnt = (ticks (tally cfg tickWeight ts s) s).cnt ∧ t.cmf = (ticks (tally cfg tickWeight ts s) s).cmf := by
  induction ts generalizing s with
  | nil => cases h; exact ⟨rfl, rfl⟩
  | cons x xs ih =>
    obtain ⟨u, hu, hrun⟩ := runTurns_cons.1 h
    have hx := hts x List.mem_cons_self
    have hkept := takeTurn_keptByOthers hx hu
    obtain ⟨hcnt, hcmf⟩ := takeTurn_ticks_of_disabled hx hcmie hu
    obtain ⟨ihcnt, ihcmf⟩ := ih (fun y hy => hts y (List.mem_cons_of_mem x hy)) (hkept.cmie.trans hcmie) hrun
    rw [tally_cons _ xs hu, ticks_add, ihcnt, ihcmf]
    exact ticks_counter_congr hcnt (by rw [ticks_cmp, hkept.cmp]) hcmf _

/-- A turn from a state with the interrupt disabled leaves the accumulator alone. -/
theorem takeTurn_ms_of_disabled {cfg : ValidConfig} {x : Turn} {s t : State} (hcmie : s.cmie = false)
    (h : takeTurn cfg x s = .next t) : t.ms = s.ms := by
  have hoff : s.serviceEnabled = false := by simp [State.serviceEnabled, serviceTrigger, irqLevel, hcmie]
  simp [takeTurn_ms h, serviceWeight, hoff]

/-- A run in which every turn finds the interrupt disabled leaves the accumulator alone. -/
theorem runTurns_ms_of_disabled {cfg : ValidConfig} {ts : List Turn} {s t : State}
    (hcmie : ∀ (k : Nat) (u : State), k < ts.length → runTurns cfg (ts.take k) s = .next u → u.cmie = false)
    (h : runTurns cfg ts s = .next t) : t.ms = s.ms := by
  induction ts generalizing s with
  | nil => cases h; rfl
  | cons x xs ih =>
    obtain ⟨u, hu, hrun⟩ := runTurns_cons.1 h
    have hlater : ∀ (k : Nat) (v : State), k < xs.length → runTurns cfg (xs.take k) u = .next v → v.cmie = false :=
      fun k v hk hv => hcmie (k + 1) v (Nat.succ_lt_succ hk) (runTurns_cons.2 ⟨u, hu, hv⟩)
    rw [ih hlater hrun]
    exact takeTurn_ms_of_disabled (hcmie 0 s (Nat.succ_pos _) rfl) hu

/-- Settles O38: no service with `CMIE` 0, and the counter by the ticks of the run. -/
theorem disabledAccumulatorStandsStill : Obligations.DisabledAccumulatorStandsStill := by
  refine fun cfg ts s t h => ⟨fun hcmie => runTurns_ms_of_disabled hcmie h, fun hcmie hts => ⟨?_, ?_, ?_⟩⟩
  · refine runTurns_ms_of_disabled (fun k u _ hu => ?_) h
    exact (runTurns_keptByOthers (fun x hx => hts x (List.mem_of_mem_take hx)) hu).cmie.trans hcmie
  · exact (runTurns_keptByOthers hts h).cmie.trans hcmie
  · exact runTurns_ticks_of_disabled hts hcmie h

/-! ### Torn reads (44 R207) -/

/-- Without `FG`, one turn's part in the position of the counter: each tick moves it on by one, and a match takes a
whole period off it. -/
theorem takeTurn_position {cfg : ValidConfig} {x : Turn} {s t : State} (hx : x ≠ .fg)
    (hle : s.cnt.toNat ≤ s.cmp.toNat) (h : takeTurn cfg x s = .next t) :
    matchWeight x s t * (s.cmp.toNat + 1) + t.cnt.toNat = s.cnt.toNat + tickWeight x s t := by
  cases x with
  | fg => exact absurd rfl hx
  | tmr =>
    obtain ⟨hcs, rfl⟩ | ⟨d, hcs, hd, ⟨hpsc, rfl⟩ | ⟨hpsc, rfl⟩⟩ := clockEdge_cases h
    · simp [matchWeight, tickWeight, State.edgeMatches, State.edgeTicks, hcs]
    · have hticks : s.edgeTicks = true := by simp [State.edgeTicks, hcs, hd, hpsc]
      by_cases hm : s.cnt = s.cmp
      · rw [tick_of_match (s := { s with psc := 0 }) hm]
        simp [matchWeight, tickWeight, State.edgeMatches, hticks, compareMatch, hm]
      · have hlt : s.cnt.toNat ≠ s.cmp.toNat := fun h => hm (BitVec.eq_of_toNat_eq h)
        have hbound := s.cmp.isLt
        rw [tick_of_ne (s := { s with psc := 0 }) hm]
        simp [matchWeight, tickWeight, State.edgeMatches, hticks, compareMatch, hm]
        omega
    · have hticks : s.edgeTicks = false := by simp [State.edgeTicks, hd, Ne.symm hpsc]
      simp [matchWeight, tickWeight, State.edgeMatches, hticks]
  | isr =>
    cases h
    obtain ⟨-, -, -, ht⟩ | ⟨-, ht⟩ := serviceTurn_cases s <;> simp [ht, matchWeight, tickWeight]
  | host a =>
    cases h
    obtain ⟨g, l, ht⟩ := hostTurn_cases a s
    simp [ht, matchWeight, tickWeight]

theorem runTurns_position {cfg : ValidConfig} {ts : List Turn} {s t : State} (hts : ∀ x ∈ ts, x ≠ .fg)
    (hle : s.cnt.toNat ≤ s.cmp.toNat) (h : runTurns cfg ts s = .next t) :
    tally cfg matchWeight ts s * (s.cmp.toNat + 1) + t.cnt.toNat = s.cnt.toNat + tally cfg tickWeight ts s := by
  induction ts generalizing s with
  | nil => cases h; simp [tally]
  | cons x xs ih =>
    obtain ⟨u, hu, hrun⟩ := runTurns_cons.1 h
    have hx := hts x List.mem_cons_self
    have hcmp := (takeTurn_keptByOthers hx hu).cmp
    have hturn := takeTurn_position hx hle hu
    have hrest := ih (fun y hy => hts y (List.mem_cons_of_mem x hy))
      (counterStaysBelowTheTarget cfg x s u hu hle hcmp) hrun
    rw [hcmp] at hrest
    rw [tally_cons _ xs hu, tally_cons _ xs hu, Nat.add_mul]
    omega

/-- Fewer ticks than a period hold at most one match. -/
theorem matches_le_one {cfg : ValidConfig} {ts : List Turn} {s t : State} (hts : ∀ x ∈ ts, x ≠ .fg)
    (hle : s.cnt.toNat ≤ s.cmp.toNat) (h : runTurns cfg ts s = .next t)
    (hticks : tally cfg tickWeight ts s < s.cmp.toNat + 1) : tally cfg matchWeight ts s ≤ 1 := by
  have hposition := runTurns_position hts hle h
  by_contra hmany
  have := Nat.mul_le_mul_right (s.cmp.toNat + 1) (show 2 ≤ tally cfg matchWeight ts s by omega)
  omega

/-- Without `FG` and with prompt service, the services and the pending flag make up the matches. -/
theorem services_of_prompt {cfg : ValidConfig} {ts : List Turn} {s t : State} (hts : ∀ x ∈ ts, x ≠ .fg)
    (hprompt : PromptService cfg ts s) (h : runTurns cfg ts s = .next t) :
    tally cfg serviceWeight ts s + t.cmf.toNat = tally cfg matchWeight ts s + s.cmf.toNat := by
  refine accHypothesisLosesNoMatch cfg ts s t ⟨?_, hprompt⟩ h
  clear hprompt
  induction ts generalizing s with
  | nil => rfl
  | cons x xs ih =>
    obtain ⟨u, hu, hrun⟩ := runTurns_cons.1 h
    rw [tally_cons _ xs hu, ih (fun y hy => hts y (List.mem_cons_of_mem x hy)) hrun]
    simp [flagWriteWeight, hts x List.mem_cons_self]

/-- Settles O53: the two reads are at most one match apart, and the match is in the sum or in the accumulator. -/
theorem tornReadIsWithinOneMillisecond : Obligations.TornReadIsWithinOneMillisecond := by
  intro cfg ts s t p _ hcmp hle hts h hticks hp hwrap hprompt
  have htpm := (tpm_bounds cfg.valid).1
  have hone := matches_le_one hts hle h (by omega)
  refine ⟨fun hflag => ?_, fun hflag => ?_⟩
  · have hms : s.ms.toNat = p := by simpa [hflag] using hp
    simp only [trueTime, hms]
    rw [abs_le]
    constructor <;> push_cast <;> omega
  · have hservices := services_of_prompt hts hprompt h
    rw [hflag, Bool.toNat_false, Nat.add_zero] at hservices
    have hms : t.ms.toNat = p + tally cfg matchWeight ts s := by
      rw [accumulatorCountsServices cfg ts s t h, hservices, BitVec.toNat_add, BitVec.toNat_ofNat]
      omega
    simp only [trueTime, hms]
    rw [abs_le]
    constructor <;> push_cast <;> omega

end Sys2Proof.Machine
end

section
/-! O59 and O60: `GIE` is the host's, a critical section excludes the service, and in a fair run services never cease
(60 §2, 70 §4). -/

namespace Sys2Proof.Machine

/-! ### The global interrupt enable (60 R236) -/

/-- No agent but the host writes `GIE` or the values it saved. -/
theorem takeTurn_gie {cfg : ValidConfig} {x : Turn} {s t : State} (hx : ∀ a, x ≠ .host a)
    (h : takeTurn cfg x s = .next t) : t.gie = s.gie ∧ t.savedGie = s.savedGie := by
  cases x with
  | fg =>
    obtain ⟨-, -, hgie, hsaved, -⟩ := foregroundTurn_keeps h
    exact ⟨hgie, hsaved⟩
  | tmr => obtain ⟨-, rfl⟩ | ⟨d, -, -, ⟨-, rfl⟩ | ⟨-, rfl⟩⟩ := clockEdge_cases h <;> simp
  | isr =>
    cases h
    obtain ⟨-, -, -, ht⟩ | ⟨-, ht⟩ := serviceTurn_cases s <;> rw [ht] <;> exact ⟨rfl, rfl⟩
  | host a => exact absurd rfl (hx a)

/-- With `GIE` 0 no turn is a service. -/
theorem takeTurn_ms_of_masked {cfg : ValidConfig} {x : Turn} {s t : State} (hgie : s.gie = false)
    (h : takeTurn cfg x s = .next t) : t.ms = s.ms := by
  have hoff : s.serviceEnabled = false := by simp [State.serviceEnabled, serviceTrigger, hgie]
  simp [takeTurn_ms h, serviceWeight, hoff]

/-- What a critical section keeps until the host ends it: the interrupt masked, the saved values, the accumulator. -/
def Masked (saved : List Bool) (ms : Word) (u : State) : Prop := u.gie = false ∧ u.savedGie = saved ∧ u.ms = ms

theorem takeTurn_masked {cfg : ValidConfig} {x : Turn} {saved : List Bool} {ms : Word} (hx : ∀ a, x ≠ .host a)
    (s t : State) (h : takeTurn cfg x s = .next t) (hs : Masked saved ms s) : Masked saved ms t := by
  obtain ⟨hgie, hsaved, hms⟩ := hs
  obtain ⟨hgie', hsaved'⟩ := takeTurn_gie hx h
  exact ⟨hgie'.trans hgie, hsaved'.trans hsaved, (takeTurn_ms_of_masked hgie h).trans hms⟩

/-- Settles O59: the host's own turns from their definition, the critical section as an invariant of the turns in it. -/
theorem hostOwnsTheInterruptEnable : Obligations.HostOwnsTheInterruptEnable := by
  refine ⟨fun _ _ _ => rfl, fun cfg x s t hx h => takeTurn_gie hx h, fun cfg ts s t hts h => ?_⟩
  obtain ⟨u, hu, hrun⟩ := runTurns_cons.1 h
  obtain ⟨v, hv, hrestore⟩ := runTurns_append.1 hrun
  have hopen : Masked (s.gie :: s.savedGie) s.ms u := by
    cases hu
    exact ⟨rfl, rfl, rfl⟩
  obtain ⟨-, hsaved, hms⟩ := runTurns_invariant (fun x hx => takeTurn_masked (hts x hx)) hv hopen
  obtain ⟨w, hw, hend⟩ := runTurns_cons.1 hrestore
  cases hend
  cases hw
  simp [hostTurn, hsaved, hms]

/-! ### Liveness (70 R271) -/

/-- The number of edges up to and with the next match, where the divisor is `d`. -/
def edgesToMatch (d : Nat) (s : State) : Nat := (s.cmp - s.cnt).toNat * d + (d - s.psc)

/-- One tick short of a match, one tick less remains. -/
theorem toNat_sub_add_one {a b : Half} (h : b ≠ a) : (a - b).toNat = (a - (b + 1#16)).toNat + 1 := by
  have hne : b.toNat ≠ a.toNat := fun heq => h (BitVec.eq_of_toNat_eq heq)
  have ha := a.isLt
  have hb := b.isLt
  rw [BitVec.toNat_sub, BitVec.toNat_sub, BitVec.toNat_add, BitVec.toNat_ofNat]
  omega

/-- An edge that does not match brings the match one edge nearer. -/
theorem edgesToMatch_clockEdge {s t : State} {d : Nat} (hcs : s.cs ≠ 0#3) (hd : divisor s.cs = some d)
    (hpsc : s.psc < d) (hm : s.edgeMatches = false) (h : clockEdge s = .next t) :
    edgesToMatch d t + 1 = edgesToMatch d s := by
  rw [clockEdge_of_divisor hcs hd] at h
  split at h <;> rename_i hlast <;> cases h
  · have hticks : s.edgeTicks = true := by simp [State.edgeTicks, hcs, hd, hlast]
    have hne : s.cnt ≠ s.cmp := by simpa [State.edgeMatches, hticks, compareMatch] using hm
    rw [tick_of_ne (s := { s with psc := 0 }) hne]
    simp only [edgesToMatch, toNat_sub_add_one hne, Nat.add_mul]
    omega
  · simp only [edgesToMatch]
    omega

/-- A turn that leaves the clock select and the target alone and is no edge leaves the way to the match alone. -/
theorem edgesToMatch_of_not_tmr {cfg : ValidConfig} {x : Turn} {s t : State} (hx : x ≠ .tmr) (hcs : t.cs = s.cs)
    (hcmp : t.cmp = s.cmp) (h : takeTurn cfg x s = .next t) (d : Nat) :
    t.psc = s.psc ∧ edgesToMatch d t = edgesToMatch d s := by
  have hkeep : t.cnt = s.cnt ∧ t.psc = s.psc := by
    cases x with
    | tmr => exact absurd rfl hx
    | fg =>
      obtain ⟨hcnt, -, -, -, -, hpsc⟩ := foregroundTurn_keeps h
      exact ⟨hcnt, hpsc hcs⟩
    | isr =>
      cases h
      obtain ⟨-, -, -, ht⟩ | ⟨-, ht⟩ := serviceTurn_cases s <;> rw [ht] <;> exact ⟨rfl, rfl⟩
    | host a =>
      cases h
      obtain ⟨g, l, ht⟩ := hostTurn_cases a s
      rw [ht]
      exact ⟨rfl, rfl⟩
  obtain ⟨hcnt, hpsc⟩ := hkeep
  exact ⟨hpsc, by rw [edgesToMatch, edgesToMatch, hcmp, hcnt, hpsc]⟩

/-- A flag that is set stays set where no service and no write clears it. -/
theorem cmf_stays {cfg : ValidConfig} {x : Turn} {s t : State} (h : takeTurn cfg x s = .next t) (hs : s.cmf = true)
    (hservice : ¬ (x = .isr ∧ s.serviceEnabled = true)) (hlost : lostWeight x s t = 0) : t.cmf = true := by
  have hbalance := takeTurn_balance h
  have hnone : serviceWeight x s t = 0 := if_neg hservice
  have hmerged : mergedWeight x s t = matchWeight x s t := by simp [mergedWeight, matchWeight, hs]
  rw [hnone, hlost, hmerged, hs] at hbalance
  cases ht : t.cmf with
  | true => rfl
  | false =>
    rw [ht] at hbalance
    simp at hbalance

section FairRun

/-! A run of which the premises of O60 hold: the clock stays selected, the target stays put, the interrupt stays
enabled, and no write clears the flag. -/

variable {cfg : ValidConfig} {state : Nat → State} {turn : Nat → Turn}

/-- The premises of O60 on the `n`-th state of the run and its turn. -/
structure KeepsTheInterruptRunning (state : Nat → State) (turn : Nat → Turn) (n : Nat) : Prop where
  cs : (state n).cs = (state 0).cs
  cmp : (state n).cmp = (state 0).cmp
  cmie : (state n).cmie = true
  gie : (state n).gie = true
  lost : lostWeight (turn n) (state n) (state (n + 1)) = 0

/-- No service is taken from `n` on. -/
def NoServiceFrom (state : Nat → State) (turn : Nat → Turn) (n : Nat) : Prop :=
  ∀ m, n ≤ m → ¬ (turn m = .isr ∧ (state m).serviceEnabled = true)

/-- The prescaler phase stays below the divisor. -/
theorem psc_lt_along (hrun : InfiniteRun cfg state turn) (hkeeps : ∀ n, KeepsTheInterruptRunning state turn n) {d : Nat}
    (hd : divisor (state 0).cs = some d) (hpsc : (state 0).psc < d) (n : Nat) : (state n).psc < d := by
  induction n with
  | zero => exact hpsc
  | succ n ih =>
    have hcs : (state (n + 1)).cs = (state n).cs := (hkeeps (n + 1)).cs.trans (hkeeps n).cs.symm
    have hcmp : (state (n + 1)).cmp = (state n).cmp := (hkeeps (n + 1)).cmp.trans (hkeeps n).cmp.symm
    by_cases hx : turn n = .tmr
    · have hedge := hrun n
      rw [hx] at hedge
      have hlegal := clockEdge_legalClock hedge ((legalClock_iff _).2 ⟨d, (hkeeps n).cs ▸ hd, ih⟩)
      obtain ⟨d', hd', hlt⟩ := (legalClock_iff _).1 hlegal
      obtain rfl : d = d' := Option.some.inj (hd.symm.trans ((hkeeps (n + 1)).cs ▸ hd'))
      exact hlt
    · rw [(edgesToMatch_of_not_tmr hx hcs hcmp (hrun n) d).1]
      exact ih

/-- Without services the flag is never set: it would stay set, and fairness would take its service. -/
theorem cmf_false_of_no_service (hrun : InfiniteRun cfg state turn) (hfair : WeaklyFair state turn)
    (hkeeps : ∀ n, KeepsTheInterruptRunning state turn n) {n : Nat} (hnone : NoServiceFrom state turn n) {m : Nat}
    (hm : n ≤ m) : (state m).cmf = false := by
  by_contra hset
  have hstays : ∀ k, m ≤ k → (state k).cmf = true := by
    intro k hk
    induction k, hk using Nat.le_induction with
    | base => simpa using hset
    | succ k hk ih => exact cmf_stays (hrun k) ih (hnone k (hm.trans hk)) (hkeeps k).lost
  have henabled : ∀ k, m ≤ k → (state k).serviceEnabled = true := fun k hk =>
    (serviceEnabled_iff _).2 ⟨(hkeeps k).gie, (hkeeps k).cmie, hstays k hk⟩
  obtain ⟨k, hk, hisr⟩ := hfair.2 m henabled
  exact hnone k (hm.trans hk) ⟨hisr, henabled k hk⟩

/-- Without services no turn brings the match further away, and each edge brings it nearer. -/
theorem edgesToMatch_of_no_service (hrun : InfiniteRun cfg state turn) (hfair : WeaklyFair state turn)
    (hkeeps : ∀ n, KeepsTheInterruptRunning state turn n) (hcs0 : (state 0).cs ≠ 0#3) {d : Nat}
    (hd : divisor (state 0).cs = some d) (hpsc : (state 0).psc < d) {n : Nat} (hnone : NoServiceFrom state turn n)
    {m : Nat} (hm : n ≤ m) :
    edgesToMatch d (state (m + 1)) + (if turn m = .tmr then 1 else 0) = edgesToMatch d (state m) := by
  obtain ⟨hcs, hcmp, -, -, -⟩ := hkeeps m
  obtain ⟨hcs', hcmp', -, -, -⟩ := hkeeps (m + 1)
  split
  · rename_i hx
    have hedge := hrun m
    rw [hx] at hedge
    have hunmatched : (state m).edgeMatches = false := by
      have hflag := clockEdge_cmf hedge
      rw [cmf_false_of_no_service hrun hfair hkeeps hnone (Nat.le_succ_of_le hm)] at hflag
      exact (Bool.or_eq_false_iff.1 hflag.symm).2
    exact edgesToMatch_clockEdge (hcs ▸ hcs0) (hcs ▸ hd) (psc_lt_along hrun hkeeps hd hpsc m) hunmatched hedge
  · rename_i hx
    exact (edgesToMatch_of_not_tmr hx (hcs'.trans hcs.symm) (hcmp'.trans hcmp.symm) (hrun m) d).2

/-- A run cannot go on without services: by fairness the edges come, and each would bring the match nearer. -/
theorem not_noServiceFrom (hrun : InfiniteRun cfg state turn) (hfair : WeaklyFair state turn)
    (hkeeps : ∀ n, KeepsTheInterruptRunning state turn n) (hcs0 : (state 0).cs ≠ 0#3) {d : Nat}
    (hd : divisor (state 0).cs = some d) (hpsc : (state 0).psc < d) (n : Nat) : ¬ NoServiceFrom state turn n := by
  intro hnone
  have hturn {m : Nat} (hm : n ≤ m) :=
    edgesToMatch_of_no_service hrun hfair hkeeps hcs0 hd hpsc hnone hm
  have hanti {m : Nat} (hm : n ≤ m) {k : Nat} (hk : m ≤ k) :
      edgesToMatch d (state k) ≤ edgesToMatch d (state m) := by
    induction k, hk using Nat.le_induction with
    | base => exact le_rfl
    | succ k hk ih =>
      have := hturn (hm.trans hk)
      omega
  have hnever (v : Nat) : ∀ m, n ≤ m → edgesToMatch d (state m) ≠ v := by
    induction v using Nat.strong_induction_on with
    | _ v ih =>
      intro m hm hv
      obtain ⟨k, hk, htmr⟩ := hfair.1 0 (fun m _ => (hkeeps m).cs ▸ hcs0) m (Nat.zero_le m)
      have hedge := hturn (hm.trans hk)
      rw [if_pos htmr] at hedge
      have := hanti hm hk
      exact ih _ (by omega) (k + 1) (by omega) rfl
  exact hnever _ n le_rfl rfl

end FairRun

/-- Settles O60: a fair run without further services would never come to a match. -/
theorem fairRunServicesForever : Obligations.FairRunServicesForever := by
  intro cfg state turn hrun hfair hlegal hcs hpremises n
  have hkeeps (n : Nat) : KeepsTheInterruptRunning state turn n := by
    obtain ⟨hcs, hcmp, hcmie, hgie, hlost⟩ := hpremises n
    exact ⟨hcs, hcmp, hcmie, hgie, hlost⟩
  obtain ⟨d, hd, hpsc⟩ := (legalClock_iff _).1 hlegal
  by_contra hnone
  exact not_noServiceFrom hrun hfair hkeeps hcs hd hpsc n fun m hm hservice => hnone ⟨m, hm, hservice⟩

end Sys2Proof.Machine
end

section
/-! O54 and O57: each turn of `FG` brings its procedure nearer the end, and a fault of `FG` is precise and ends the run
(44 R212, 60 R232, 70 R273). -/

namespace Sys2Proof.Machine

/-! ### The transactions of a procedure -/

/-- A write transaction completes with no data, or with a fault. -/
theorem transact_write_completes {off : Offset} {d : Word} {s u : State}
    (h : transact (writeDescriptor off d) s = .next u) : u.completion = .written ∨ ∃ f, u = s.raise f := by
  cases hoff : Reg.ofOffset off with
  | none =>
    rw [transact_write_of_unmapped hoff] at h
    cases h
    exact .inr ⟨_, rfl⟩
  | some r =>
    rw [transact_write_of_offset hoff] at h
    cases r with
    | ctrl => obtain ⟨f, hs⟩ | ⟨c, p, hs⟩ := exec_wrCtrl_cases d <;> cases (hs s).symm.trans h <;> simp
    | cmp => obtain ⟨f, hs⟩ | ⟨v, hs⟩ := exec_wrCmp_cases d <;> cases (hs s).symm.trans h <;> simp
    | ier => obtain ⟨f, hs⟩ | ⟨b, hs⟩ := exec_wrIer_cases d <;> cases (hs s).symm.trans h <;> simp
    | ifr => obtain ⟨f, hs⟩ | ⟨b, hs⟩ := exec_wrIfr_cases d <;> cases (hs s).symm.trans h <;> simp
    | cnt | ms => cases h; exact .inr ⟨_, rfl⟩

/-- A read transaction completes with a value, or with a fault. -/
theorem transact_read_completes {off : Offset} {s u : State} (h : transact (readDescriptor off) s = .next u) :
    (∃ v, u.completion = .rdata v) ∨ ∃ f, u = s.raise f := by
  cases hoff : Reg.ofOffset off with
  | none =>
    rw [transact_read_of_unmapped hoff] at h
    cases h
    exact .inr ⟨_, rfl⟩
  | some r =>
    rw [transact_read_of_offset hoff, exec_readInstr] at h
    cases h
    exact .inl ⟨_, rfl⟩

/-- A write step without a fault goes to its next frame. -/
theorem writeStep_frame {cfg : ClockConfig} {off : Offset} {d : Word} {f : Frame} {s t : State}
    (h : writeStep cfg off d f s = .next t) (ht : t.faults = []) : t.frame = f := by
  obtain ⟨u, hu, -⟩ := transact_effect (writeDescriptor off d) s
  rw [writeStep, memWrite_busAddress, hu] at h
  obtain hc | ⟨e, rfl⟩ := transact_write_completes hu
  · simp only [afterWrite, hc] at h
    cases h
    rfl
  · cases h
    exact absurd ht (recordFault_ne_nil _ _)

/-- A read step without a fault goes to the next frame of some value. -/
theorem readStep_frame {cfg : ClockConfig} {off : Offset} {k : Word → Frame} {s t : State}
    (h : readStep cfg off k s = .next t) (ht : t.faults = []) : ∃ v, t.frame = k v := by
  obtain ⟨u, hu, -⟩ := transact_effect (readDescriptor off) s
  rw [readStep, memRead_busAddress, hu] at h
  obtain ⟨v, hc⟩ | ⟨e, rfl⟩ := transact_read_completes hu
  · simp only [afterRead, hc] at h
    cases h
    exact ⟨v, rfl⟩
  · cases h
    exact absurd ht (recordFault_ne_nil _ _)

/-! ### The measure of a procedure (44 R212) -/

theorem turnsLeft_le_five (f : Frame) : f.turnsLeft ≤ 5 := by cases f <;> simp [Frame.turnsLeft]

/-- Each step of a running procedure that does not fault brings its end nearer. -/
theorem procStep_turnsLeft {cfg : ValidConfig} {s t : State} (hr : s.frame ≠ .idle) (h : procStep cfg s = .next t)
    (ht : t.faults = []) : t.frame.turnsLeft < s.frame.turnsLeft := by
  cases hfr : s.frame <;> simp only [procStep, hfr] at h
  case idle => exact absurd hfr hr
  case initCompare | initFlags | initEnable | initClock | enableFlags | enableInterrupt | disableFlags
      | disableInterrupt =>
    rw [writeStep_frame h ht]
    decide
  case isEnabledRead | millisRead | microsMsThenCnt | microsCntAfter | microsCntThenMs | microsMsAfter =>
    obtain ⟨v, hv⟩ := readStep_frame h ht
    rw [hv]
    simp [Frame.turnsLeft]
  case isEnabledReturn | millisReturn | microsReturn => cases h; simp [Frame.turnsLeft]
  case microsDraw => split at h <;> cases h <;> simp [Frame.turnsLeft]
  case microsConvert m c =>
    split at h <;> cases h
    · simp [Frame.turnsLeft]
    · exact absurd ht (recordFault_ne_nil _ _)

/-- Settles O54: `FG` by its procedure's measure, the others by what they keep. -/
theorem proceduresAreBounded : Obligations.ProceduresAreBounded := by
  intro cfg x s t h
  split
  · rename_i hx
    subst hx
    intro hf hr ht
    exact ⟨procStep_turnsLeft hr ((foregroundTurn_running cfg hf hr).symm.trans h) ht, turnsLeft_le_five _⟩
  · rename_i hx
    have hkept := takeTurn_keptByOthers hx h
    exact ⟨hkept.frame, hkept.program, hkept.returned⟩

/-! ### A fault is precise (60 R232) -/

/-- A transaction that records a fault does nothing else. -/
theorem BusEffect.eq_raise {s u : State} (h : BusEffect s u) (hf : u.faults ≠ s.faults) : ∃ f, u = s.raise f := by
  cases h with
  | fault f => exact ⟨f, rfl⟩
  | clock c d => exact absurd (by simp) hf
  | read | compare | interruptEnable | flagClear => exact absurd rfl hf

/-- A turn of `FG` that records a fault does nothing else but take the operation out of the program. -/
theorem foregroundTurn_eq_raise {cfg : ValidConfig} {s t : State} (h : foregroundTurn cfg s = .next t)
    (hf : t.faults ≠ s.faults) : ∃ f, t = { s with program := t.program }.raise f := by
  cases foregroundTurn_effect h with
  | rest | compute => exact absurd rfl hf
  | issue T p u _ _ hu =>
    obtain ⟨f, rfl⟩ := (busEffect_of_transact hu).eq_raise hf
    exact ⟨f, rfl⟩
  | advance T u f _ _ _ hu hc =>
    obtain ⟨e, rfl⟩ := (busEffect_of_transact hu).eq_raise hf
    exact absurd rfl (hc e)
  | misuse p e => exact ⟨e, rfl⟩

/-- A run ends at the turn in which `FG` faults, and not at an observation point (70 R273). -/
theorem runEnd_of_fault {cfg : ValidConfig} {x : Turn} {s t : State} (h : takeTurn cfg x s = .next t)
    (hf : t.faults ≠ []) (ts : List Turn) : runEnd cfg (x :: ts) s = some (.faulted t.faults) := by
  simp [runEnd, h, observationPoint, hf]

/-! ### A good end (70 R273) -/

/-- `FG` has no transaction left and no fault before it: what is true from the observation point of a good end on. -/
structure Finished (cfg : ClockConfig) (s : State) : Prop where
  faults : s.faults = []
  frame : s.frame.issues = false
  program : ∀ q ∈ s.program, q.issues = false ∧ q.isFaultingConversion cfg = false

theorem finished_of_observationPoint {cfg : ValidConfig} {x : Turn} {s t : State}
    (hobs : observationPoint cfg x s t = true) (hconv : t.conversionFaultLeft cfg.clock = false) :
    Finished cfg.clock t := by
  simp only [observationPoint, Bool.and_eq_true, Bool.not_eq_true', State.transactionsLeft, Bool.or_eq_false_iff,
    List.any_eq_false, beq_iff_eq] at hobs
  obtain ⟨⟨-, hf⟩, hframe, hprogram⟩ := hobs
  simp only [State.conversionFaultLeft, List.any_eq_false] at hconv
  exact ⟨hf, hframe, fun q hq => ⟨by simpa using hprogram q hq, by simpa using hconv q hq⟩⟩

/-- The value of the `CNT` read is 16 bits wide, so converting it does not fault (40 R112). -/
theorem ticksToUs_cmpField (cfg : ClockConfig) (c : Word) :
    ticksToUs cfg (cmpField c).toNat = .ok (scaleToUs cfg (cmpField c).toNat) :=
  ticksToUs_of_le (Nat.le_of_lt_succ (cmpField c).isLt)

theorem procStep_finished {cfg : ValidConfig} {s t : State} (hs : Finished cfg.clock s) (hr : s.frame ≠ .idle)
    (h : procStep cfg s = .next t) : Finished cfg.clock t := by
  obtain ⟨hf, hframe, hprogram⟩ := hs
  cases hfr : s.frame <;> rw [hfr] at hframe hr <;> simp only [procStep, hfr] at h
  case idle => exact absurd rfl hr
  case isEnabledReturn | millisReturn | microsReturn => cases h; exact ⟨hf, rfl, hprogram⟩
  case microsConvert m c =>
    rw [ticksToUs_cmpField] at h
    cases h
    exact ⟨hf, rfl, hprogram⟩
  all_goals simp [Frame.issues] at hframe

theorem startRequest_finished {cfg : ValidConfig} {q : Request} {rest : List Request} {s t : State}
    (hs : Finished cfg.clock s) (hp : s.program = q :: rest)
    (h : startRequest cfg q { s with program := rest } = .next t) : Finished cfg.clock t := by
  obtain ⟨hf, -, hprogram⟩ := hs
  obtain ⟨hissues, hfaulting⟩ := hprogram q (by simp [hp])
  have hrest : ∀ r ∈ rest, r.issues = false ∧ r.isFaultingConversion cfg.clock = false :=
    fun r hr => hprogram r (by simp [hp, hr])
  cases q with
  | txn | memRead | memWrite | call => simp [Request.issues] at hissues
  | convert f x =>
    obtain ⟨n, hn⟩ | he := convert_total cfg.clock f x.toNat
    · rw [startRequest, hn] at h
      cases h
      exact ⟨hf, rfl, hrest⟩
    · simp [Request.isFaultingConversion, he] at hfaulting

/-- From then on it stays so, whoever steps. -/
theorem takeTurn_finished {cfg : ValidConfig} (x : Turn) (s t : State) (h : takeTurn cfg x s = .next t)
    (hs : Finished cfg.clock s) : Finished cfg.clock t := by
  by_cases hx : x = .fg
  · subst hx
    by_cases hr : s.frame = .idle
    · cases hp : s.program with
      | nil =>
        cases (foregroundTurn_over cfg hs.faults hr hp).symm.trans h
        exact hs
      | cons q rest => exact startRequest_finished hs hp ((foregroundTurn_start cfg hs.faults hr hp).symm.trans h)
    · exact procStep_finished hs hr ((foregroundTurn_running cfg hs.faults hr).symm.trans h)
  · have hkept := takeTurn_keptByOthers hx h
    obtain ⟨hf, hframe, hprogram⟩ := hs
    exact ⟨hkept.faults.trans hf, by rwa [hkept.frame], by rwa [hkept.program]⟩

/-- A run with a good end has no fault, however it goes on. -/
theorem faults_of_goodEnd {cfg : ValidConfig} {ts later : List Turn} {s t : State} (hgood : goodEnd cfg ts s = true)
    (h : runTurns cfg (ts ++ later) s = .next t) : t.faults = [] := by
  induction ts generalizing s with
  | nil => simp [goodEnd, runEnd] at hgood
  | cons x xs ih =>
    obtain ⟨u, hu, hrun⟩ := runTurns_cons.1 h
    simp only [goodEnd, runEnd, hu] at hgood
    by_cases hobs : observationPoint cfg x s u = true ∧ u.conversionFaultLeft cfg.clock = false
    · exact (runTurns_invariant (fun x _ => takeTurn_finished x) hrun
        (finished_of_observationPoint hobs.1 hobs.2)).faults
    · rw [if_neg hobs] at hgood
      by_cases hf : u.faults = []
      · rw [if_neg (not_not.2 hf)] at hgood
        exact ih hgood hrun
      · simp [hf] at hgood

/-- Settles O57: a fault by the turn that records it, a good end by what stays true after it. -/
theorem foregroundFaultIsPrecise : Obligations.ForegroundFaultIsPrecise := by
  refine ⟨fun cfg s t h hf => ⟨foregroundTurn_eq_raise h hf, fun ts => ?_⟩, fun cfg ts later s t => faults_of_goodEnd⟩
  obtain ⟨f, ht⟩ := foregroundTurn_eq_raise h hf
  have hne : t.faults ≠ [] := by
    rw [ht]
    exact recordFault_ne_nil _ _
  have hend := runEnd_of_fault h hne ts
  exact ⟨hend, by rw [goodEnd, hend]⟩

end Sys2Proof.Machine
end

section
/-! O34 to O37, O50 and O51: the driver and synthesizer procedures, uninterrupted and with turns of the other agents
among their steps (42 R161 to R168, 44 R202 to R204). -/

namespace Sys2Proof.Machine

/-! ### A run of `FG` alone, turn by turn -/

/-- `n` turns of `FG` with none of another agent between them lead from `s` to `t` and issue `ds`. -/
def Uninterrupted (cfg : ValidConfig) (n : Nat) (s : State) (ds : List Descriptor) (t : State) : Prop :=
  issued cfg (List.replicate n .fg) s = ds ∧ foregroundRun cfg n s = .next t

theorem Uninterrupted.refl (cfg : ValidConfig) (s : State) : Uninterrupted cfg 0 s [] s := ⟨rfl, rfl⟩

/-- A turn that issues a transaction, before a run of turns. -/
theorem Uninterrupted.issuing {cfg : ValidConfig} {n : Nat} {s u t : State} {T : Descriptor} {ds : List Descriptor}
    (hd : foregroundDescriptor cfg s = some T) (hturn : foregroundTurn cfg s = .next u)
    (h : Uninterrupted cfg n u ds t) : Uninterrupted cfg (n + 1) s (T :: ds) t := by
  obtain ⟨hissued, hrun⟩ := h
  refine ⟨?_, runTurns_cons.2 ⟨u, hturn, hrun⟩⟩
  rw [List.replicate_succ, issued_fg_cons _ hturn, hd, hissued]
  rfl

/-- A turn that issues none, before a run of turns. -/
theorem Uninterrupted.silent {cfg : ValidConfig} {n : Nat} {s u t : State} {ds : List Descriptor}
    (hd : foregroundDescriptor cfg s = none) (hturn : foregroundTurn cfg s = .next u)
    (h : Uninterrupted cfg n u ds t) : Uninterrupted cfg (n + 1) s ds t := by
  obtain ⟨hissued, hrun⟩ := h
  refine ⟨?_, runTurns_cons.2 ⟨u, hturn, hrun⟩⟩
  rw [List.replicate_succ, issued_fg_cons _ hturn, hd, hissued]
  rfl

/-- A procedure's write step whose write completes (42 R161 to R163). -/
theorem foregroundTurn_write {cfg : ValidConfig} {s u : State} {r : Reg} {d : Word} {f : Frame} (hf : s.faults = [])
    (hr : s.frame ≠ .idle) (hstep : procStep cfg s = writeStep cfg.clock r.offset d f s)
    (hexec : exec (r.writeInstr d) s = .next u) (hc : u.completion = .written) :
    foregroundTurn cfg s = .next { u with frame := f } := by
  rw [foregroundTurn_running cfg hf hr, hstep, writeStep_eq, hexec, afterWrite, hc]

/-- A procedure's read step puts the register's value into its next frame (42 R164, 44 R202, R203). -/
theorem foregroundTurn_read {cfg : ValidConfig} {s : State} {r : Reg} {k : Word → Frame} (hf : s.faults = [])
    (hr : s.frame ≠ .idle) (hstep : procStep cfg s = readStep cfg.clock r.offset k s) :
    foregroundTurn cfg s = .next { s with completion := .rdata (s.readReg r), frame := k (s.readReg r) } := by
  rw [foregroundTurn_running cfg hf hr, hstep, readStep_eq]

/-- The turn of a call is the check of `INIT`, which issues no transaction. -/
theorem foregroundDescriptor_call (cfg : ValidConfig) {s : State} {p : Proc} {rest : List Request}
    (hc : s.calls p rest) : foregroundDescriptor cfg s = none := by
  obtain ⟨hf, hr, hp⟩ := hc
  simp [foregroundDescriptor, hf, hr, hp]

/-! ### The writes of the driver -/

theorem exec_wrIfr_one (s : State) :
    exec (.wrIfr 1#32) s = .next { s with cmf := false, completion := .written } :=
  exec_wrIfr_of_legal (by decide) s

theorem exec_wrIer_bit (on : Bool) (s : State) :
    exec (.wrIer (if on then 1#32 else 0#32)) s = .next { s with cmie := on, completion := .written } := by
  cases on
  · exact exec_wrIer_of_legal (by decide) s
  · exact exec_wrIer_of_legal (by decide) s

/-- The target that `init()` writes fits its field (40 R105). -/
theorem exec_wrCmp_target (cfg : ValidConfig) (s : State) :
    exec (.wrCmp (BitVec.ofNat 32 (tpm cfg.clock - 1))) s =
      .next { s with cmp := BitVec.ofNat 16 (tpm cfg.clock - 1), completion := .written } := by
  have hle := (tpm_bounds cfg.valid).2
  have hreserved : cmpReserved (BitVec.ofNat 32 (tpm cfg.clock - 1)) = 0#16 := by
    refine BitVec.eq_of_toNat_eq ?_
    simp only [cmpReserved, BitVec.extractLsb'_toNat, Nat.shiftRight_eq_div_pow, BitVec.toNat_ofNat]
    omega
  have hfield : cmpField (BitVec.ofNat 32 (tpm cfg.clock - 1)) = BitVec.ofNat 16 (tpm cfg.clock - 1) := by
    refine BitVec.eq_of_toNat_eq ?_
    simp only [cmpField, BitVec.extractLsb'_toNat, Nat.shiftRight_zero, BitVec.toNat_ofNat]
    omega
  rw [exec_wrCmp_of_legal hreserved, hfield]

/-- A clock-select code zero-extended has no reserved bit set and is its own field. -/
theorem ctrl_zext32 : ∀ c : ClockCode, ctrlReserved (zext32 c) = 0#29 ∧ ctrlField (zext32 c) = c := by decide

/-- The code that `init()` writes selects the divisor of the configuration (40 R106). -/
theorem exec_wrCtrl_initCode (cfg : ValidConfig) (s : State) :
    exec (.wrCtrl (zext32 (initCode cfg))) s =
      .next ((s.selectClock (initCode cfg) cfg.clock.prescale).complete .written) := by
  obtain ⟨hreserved, hfield⟩ := ctrl_zext32 (initCode cfg)
  have hdiv : divisor (ctrlField (zext32 (initCode cfg))) = some cfg.clock.prescale := by
    rw [hfield]
    exact divisor_clockCode (csCode_clock cfg)
  rw [exec_wrCtrl_of_code hreserved hdiv, hfield]

/-! ### `init()`, `enable()`, `disable()` (42 R161 to R163) -/

/-- The first turn of a first `init()` sets `INIT`. -/
theorem foregroundTurn_init (cfg : ValidConfig) {s : State} {rest : List Request} (hc : s.calls .init rest)
    (hi : s.initDone = false) :
    foregroundTurn cfg s = .next { s with program := rest, initDone := true, frame := .initCompare } := by
  obtain ⟨hf, hr, hp⟩ := hc
  simp [foregroundTurn_start cfg hf hr hp, startRequest, checkInit, hi, Proc.secondStep]

/-- The registers that the first three writes of `init()` leave, before the clock is selected. -/
def State.afterInitWrites (s : State) (cfg : ValidConfig) (rest : List Request) : State :=
  { s with
    cmp := BitVec.ofNat 16 (tpm cfg.clock - 1), cmf := false, cmie := true, initDone := true, program := rest,
    frame := .initClock, completion := .written }

/-- An uninterrupted `init()`, turn by turn (42 R161). -/
theorem init_uninterrupted (cfg : ValidConfig) {s : State} {rest : List Request} (hc : s.calls .init rest)
    (hi : s.initDone = false) :
    Uninterrupted cfg 5 s
      [encode (.wrCmp (BitVec.ofNat 32 (tpm cfg.clock - 1))), encode (.wrIfr 1#32), encode (.wrIer 1#32),
        encode (.wrCtrl (zext32 (initCode cfg)))]
      { (s.afterInitWrites cfg rest).selectClock (initCode cfg) cfg.clock.prescale with
        completion := .written, frame := .idle } := by
  have hf := hc.1
  refine .silent (foregroundDescriptor_call cfg hc) (foregroundTurn_init cfg hc hi) ?_
  refine .issuing (by simp [foregroundDescriptor, hf, encode])
    (foregroundTurn_write (r := .cmp) hf (by simp) rfl (exec_wrCmp_target cfg _) rfl) ?_
  refine .issuing (by simp [foregroundDescriptor, hf, encode])
    (foregroundTurn_write (r := .ifr) hf (by simp) rfl (exec_wrIfr_one _) rfl) ?_
  refine .issuing (by simp [foregroundDescriptor, hf, encode])
    (foregroundTurn_write (r := .ier) hf (by simp) rfl (exec_wrIer_bit true _) rfl) ?_
  exact .issuing (by simp [foregroundDescriptor, hf, encode])
    (foregroundTurn_write (r := .ctrl) hf (by simp) rfl (exec_wrCtrl_initCode cfg _) rfl) (.refl cfg _)

/-- Settles O34: the five turns of `init()`, and what its last write leaves by whether the code is new. -/
theorem initProgramsTheTimer : Obligations.InitProgramsTheTimer := by
  intro cfg s rest code hcode hc hi
  obtain rfl : initCode cfg = code := Option.some.inj ((csCode_clock cfg).symm.trans hcode)
  obtain ⟨hissued, hrun⟩ := init_uninterrupted cfg hc hi
  have htpm := (tpm_bounds cfg.valid).2
  refine ⟨hissued, _, hrun, ?_, by simp [State.afterInitWrites], by simp [State.afterInitWrites], by simp, fun hnew => ?_,
    by simp [State.afterInitWrites], by simp [State.afterInitWrites], by simp [State.afterInitWrites],
    by simp [State.afterInitWrites], rfl, ?_, by simp [State.afterInitWrites]⟩
  · simp only [selectClock_cmp, State.afterInitWrites, BitVec.toNat_ofNat]
    omega
  · have hdiv := divisor_clockCode (csCode_clock cfg)
    obtain ⟨hsame, -⟩ | ⟨-, p, hp, hsel⟩ :=
      selectClock_cases (s.afterInitWrites cfg rest) (initCode cfg) (divisor_pos hdiv)
    · exact absurd hsame.symm hnew
    · rw [hsel]
      exact hp
  · simpa [State.afterInitWrites] using hc.1

/-- The second half of `enable()` and `disable()`, from the frame that writes `IER`. -/
theorem setEnable_uninterrupted (cfg : ValidConfig) (on : Bool) {s : State} (hf : s.faults = [])
    (hr : s.frame = if on then .enableInterrupt else .disableInterrupt) :
    Uninterrupted cfg 1 s [encode (.wrIer (if on then 1#32 else 0#32))]
      { s with cmie := on, completion := .written, frame := .idle } := by
  cases on
  · exact .issuing (by simp [foregroundDescriptor, hf, hr, encode])
      (foregroundTurn_write (r := .ier) hf (by simp [hr]) (by rw [procStep, hr]; rfl) (exec_wrIer_bit false s) rfl)
      (.refl cfg _)
  · exact .issuing (by simp [foregroundDescriptor, hf, hr, encode])
      (foregroundTurn_write (r := .ier) hf (by simp [hr]) (by rw [procStep, hr]; rfl) (exec_wrIer_bit true s) rfl)
      (.refl cfg _)

/-- Uninterrupted, `enable()` and `disable()` write `IFR` and then `IER` (42 R162, R163). -/
theorem enable_uninterrupted (cfg : ValidConfig) (on : Bool) {s : State} {rest : List Request}
    (hc : s.calls (if on then .enable else .disable) rest) (hi : s.initDone = true) :
    Uninterrupted cfg 3 s [encode (.wrIfr 1#32), encode (.wrIer (if on then 1#32 else 0#32))]
      { s with program := rest, cmf := false, cmie := on, completion := .written, frame := .idle } := by
  have hf := hc.1
  cases on
  · exact .silent (foregroundDescriptor_call cfg hc) (foregroundTurn_call cfg hc (by decide) hi)
      (.issuing (by simp [foregroundDescriptor, hf, encode, Proc.secondStep])
        (foregroundTurn_write (r := .ifr) (f := .disableInterrupt) hf (by simp [Proc.secondStep]) rfl (exec_wrIfr_one _) rfl)
        (setEnable_uninterrupted cfg false hf rfl))
  · exact .silent (foregroundDescriptor_call cfg hc) (foregroundTurn_call cfg hc (by decide) hi)
      (.issuing (by simp [foregroundDescriptor, hf, encode, Proc.secondStep])
        (foregroundTurn_write (r := .ifr) (f := .enableInterrupt) hf (by simp [Proc.secondStep]) rfl (exec_wrIfr_one _) rfl)
        (setEnable_uninterrupted cfg true hf rfl))

/-- Settles O35, by the three turns of the call. -/
theorem enableAndDisableClearTheFlag : Obligations.EnableAndDisableClearTheFlag := by
  intro cfg s rest on hc hi
  obtain ⟨hissued, hrun⟩ := enable_uninterrupted cfg on hc hi
  obtain ⟨-, hr, -⟩ := hc
  exact ⟨hissued, hrun.trans (by rw [hr])⟩

/-- Settles O37: the check of `INIT` is the whole turn. -/
theorem misuseFaultsBeforeAnyTransaction : Obligations.MisuseFaultsBeforeAnyTransaction := by
  intro cfg s p rest hc hi
  refine ⟨foregroundDescriptor_call cfg hc, ?_⟩
  obtain ⟨hf, hr, hp⟩ := hc
  rw [takeTurn, foregroundTurn_start cfg hf hr hp, startRequest, checkInit]
  by_cases hinit : p = .init
  · simp [hinit, hi, completeFault]
  · simp [hinit, hi, completeFault]

/-! ### Where the foreground stands -/

/-- What the other agents never change of the foreground: its frame, what is left of its program, what it returned,
and that it has no fault. -/
structure StandsAt (f : Frame) (rest : List Request) (ret : List Returned) (s : State) : Prop where
  faults : s.faults = []
  frame : s.frame = f
  program : s.program = rest
  returned : s.returned = ret

theorem StandsAt.kept {f : Frame} {rest : List Request} {ret : List Returned} {s t : State}
    (hs : StandsAt f rest ret s) (h : KeptByOthers s t) : StandsAt f rest ret t :=
  ⟨h.faults.trans hs.faults, h.frame.trans hs.frame, h.program.trans hs.program, h.returned.trans hs.returned⟩

/-- After a turn of `FG` and turns of others, the foreground stands where its own turn took it. -/
theorem StandsAt.after_turn {cfg : ValidConfig} {f : Frame} {rest : List Request} {ret : List Returned} {s u t : State}
    {ts : List Turn} (hturn : foregroundTurn cfg s = .next u) (hu : StandsAt f rest ret u) (hts : ∀ x ∈ ts, x ≠ .fg)
    (h : runTurns cfg (.fg :: ts) s = .next t) : StandsAt f rest ret t := by
  obtain ⟨v, hv, hrun⟩ := runTurns_cons.1 h
  cases hturn.symm.trans hv
  exact hu.kept (runTurns_keptByOthers hts hrun)

/-! ### `is_enabled()` (42 R164) -/

/-- The stages of a call of `is_enabled()`, by the turns of `FG` that are left, where `CMIE` is `b`. -/
inductive IsEnabledStage (b : Bool) (rest : List Request) (ret : List Returned) : Nat → State → Prop
  | call {s} (hcmie : s.cmie = b) (hinit : s.initDone = true) (hs : StandsAt .idle (.call .isEnabled :: rest) ret s) :
      IsEnabledStage b rest ret 3 s
  | read {s} (hcmie : s.cmie = b) (hs : StandsAt .isEnabledRead rest ret s) : IsEnabledStage b rest ret 2 s
  | giveBack {s} (hcmie : s.cmie = b) (hs : StandsAt (.isEnabledReturn (bitWord b)) rest ret s) :
      IsEnabledStage b rest ret 1 s
  | done {s} (hcmie : s.cmie = b) (hs : StandsAt .idle rest (.isEnabled b :: ret) s) : IsEnabledStage b rest ret 0 s

/-- The other agents leave the call at its stage: none of them writes `CMIE`. -/
theorem IsEnabledStage.kept {b : Bool} {rest : List Request} {ret : List Returned} {n : Nat} {s t : State}
    (hs : IsEnabledStage b rest ret n s) (h : KeptByOthers s t) : IsEnabledStage b rest ret n t := by
  cases hs with
  | call hcmie hinit hs => exact .call (h.cmie.trans hcmie) (h.initDone.trans hinit) (hs.kept h)
  | read hcmie hs => exact .read (h.cmie.trans hcmie) (hs.kept h)
  | giveBack hcmie hs => exact .giveBack (h.cmie.trans hcmie) (hs.kept h)
  | done hcmie hs => exact .done (h.cmie.trans hcmie) (hs.kept h)

/-- A turn of `FG` takes the call to its next stage. -/
theorem IsEnabledStage.turn {cfg : ValidConfig} {b : Bool} {rest : List Request} {ret : List Returned} {n : Nat}
    {s t : State} (hs : IsEnabledStage b rest ret (n + 1) s) (h : foregroundTurn cfg s = .next t) :
    IsEnabledStage b rest ret n t := by
  cases hs with
  | call hcmie hinit hs =>
    cases (foregroundTurn_call cfg ⟨hs.faults, hs.frame, hs.program⟩ (by decide) hinit).symm.trans h
    exact .read hcmie ⟨hs.faults, rfl, rfl, hs.returned⟩
  | read hcmie hs =>
    cases (foregroundTurn_isEnabledRead cfg hs.faults hs.frame).symm.trans h
    exact .giveBack hcmie ⟨hs.faults, by rw [hcmie], hs.program, hs.returned⟩
  | giveBack hcmie hs =>
    cases (foregroundTurn_isEnabledReturn cfg hs.faults hs.frame).symm.trans h
    exact .done hcmie ⟨hs.faults, rfl, hs.program, by rw [giveBack_returned, bitWord_getLsbD_zero, hs.returned]⟩

theorem IsEnabledStage.run {cfg : ValidConfig} {b : Bool} {rest : List Request} {ret : List Returned} {ts : List Turn}
    {s t : State} (hs : IsEnabledStage b rest ret (ts.count .fg) s) (h : runTurns cfg ts s = .next t) :
    IsEnabledStage b rest ret 0 t := by
  induction ts generalizing s with
  | nil => cases h; exact hs
  | cons x xs ih =>
    obtain ⟨u, hu, hrun⟩ := runTurns_cons.1 h
    by_cases hx : x = .fg
    · subst hx
      rw [List.count_cons_self] at hs
      exact ih (hs.turn hu) hrun
    · rw [List.count_cons_of_ne hx] at hs
      exact ih (hs.kept (takeTurn_keptByOthers hx hu)) hrun

/-- Settles O36, by the stages of the call. -/
theorem isEnabledReportsTheBit : Obligations.IsEnabledReportsTheBit := by
  intro cfg s t rest ts hc hi hcount h
  obtain ⟨hf, hr, hp⟩ := hc
  have hstage : IsEnabledStage s.cmie rest s.returned (ts.count .fg) s := hcount ▸ .call rfl hi ⟨hf, hr, hp, rfl⟩
  cases hstage.run h with
  | done hcmie hs => exact ⟨hs.returned, hcmie, hs.frame, hs.faults, hs.program⟩

/-! ### `milliseconds_now()` (44 R202) -/

theorem foregroundTurn_millisRead (cfg : ValidConfig) {s : State} (hf : s.faults = []) (hr : s.frame = .millisRead) :
    foregroundTurn cfg s = .next { s with completion := .rdata s.ms, frame := .millisReturn s.ms } :=
  foregroundTurn_read (r := .ms) hf (by simp [hr]) (by rw [procStep, hr]; rfl)

theorem foregroundTurn_millisReturn (cfg : ValidConfig) {s : State} {m : Word} (hf : s.faults = [])
    (hr : s.frame = .millisReturn m) :
    foregroundTurn cfg s = .next (s.giveBack (.millisecondsNow m)) := by
  rw [foregroundTurn_running cfg hf (by simp [hr]), procStep, hr]

/-- An uninterrupted `milliseconds_now()`, turn by turn. -/
theorem milliseconds_uninterrupted (cfg : ValidConfig) {s : State} {rest : List Request}
    (hc : s.calls .millisecondsNow rest) (hi : s.initDone = true) :
    Uninterrupted cfg 3 s [encode .rdMs]
      { s with
        program := rest, completion := .rdata s.ms, returned := .millisecondsNow s.ms :: s.returned,
        frame := .idle } := by
  have hf := hc.1
  refine .silent (foregroundDescriptor_call cfg hc) (foregroundTurn_call cfg hc (by decide) hi) ?_
  refine .issuing (by simp [foregroundDescriptor, hf, encode, Proc.secondStep])
    (foregroundTurn_millisRead cfg hf rfl) ?_
  exact .silent (by simp [foregroundDescriptor, hf]) (foregroundTurn_millisReturn cfg hf rfl) (.refl cfg _)

/-- A turn of `FG` without a transaction and without a fault is no end of the run. -/
theorem runEnd_of_silent {cfg : ValidConfig} {s u : State} (ts : List Turn) (h : foregroundTurn cfg s = .next u)
    (hd : foregroundDescriptor cfg s = none) (hf : u.faults = []) : runEnd cfg (.fg :: ts) s = runEnd cfg ts u := by
  simp [runEnd, takeTurn, h, observationPoint, hd, hf]

/-- A turn of `FG` that completes its last transaction ends the run, where no conversion is left to fault. -/
theorem runEnd_of_last_transaction {cfg : ValidConfig} {s u : State} {T : Descriptor} (ts : List Turn)
    (h : foregroundTurn cfg s = .next u) (hd : foregroundDescriptor cfg s = some T) (hf : u.faults = [])
    (hlast : u.transactionsLeft = false) (hconv : u.conversionFaultLeft cfg.clock = false) :
    runEnd cfg (.fg :: ts) s = some (.observed (u.observation cfg).1 (u.observation cfg).2) := by
  simp [runEnd, takeTurn, h, observationPoint, hd, hf, hlast, hconv]

/-- Where the program ends with it, the run ends at the read, with the value of the call in the observation. -/
theorem milliseconds_observed (cfg : ValidConfig) {s : State} (hc : s.calls .millisecondsNow [])
    (hi : s.initDone = true) :
    runEnd cfg (List.replicate 3 .fg) s = some (.observed s.registers (.millisecondsNow s.ms :: s.returned)) := by
  have hf := hc.1
  have hread := foregroundTurn_millisRead cfg (s := { s with program := [], frame := .millisRead }) hf rfl
  have hreturn := foregroundTurn_millisReturn cfg
    (s := { s with program := [], completion := .rdata s.ms, frame := .millisReturn s.ms }) hf rfl
  calc runEnd cfg (List.replicate 3 .fg) s
      = runEnd cfg [.fg, .fg] { s with program := [], frame := .millisRead } :=
        runEnd_of_silent _ (foregroundTurn_call cfg hc (by decide) hi) (foregroundDescriptor_call cfg hc) hf
    _ = some (.observed _ _) :=
        runEnd_of_last_transaction [.fg] hread (by simp [foregroundDescriptor, hf]; rfl) hf rfl rfl
    _ = some (.observed s.registers (.millisecondsNow s.ms :: s.returned)) := by
        simp [State.observation, Frame.turnsLeft, finishCall, Frame.issues, hreturn, State.registers]

/-- Settles O50: uninterrupted turn by turn, and interleaved by where the foreground stands. -/
theorem millisecondsNowReadsTheAccumulator : Obligations.MillisecondsNowReadsTheAccumulator := by
  intro cfg s rest hc hi
  obtain ⟨hissued, hrun⟩ := milliseconds_uninterrupted cfg hc hi
  have hr : s.frame = .idle := by
    obtain ⟨-, hr, -⟩ := hc
    exact hr
  refine ⟨hissued, hrun.trans (by rw [hr]), ?_, fun t1 t2 s1 t hts h1 h => ?_⟩
  · rintro rfl
    exact milliseconds_observed cfg hc hi
  · have hread : StandsAt .millisRead rest s.returned s1 :=
      .after_turn (foregroundTurn_call cfg hc (by decide) hi) ⟨hc.1, rfl, rfl, rfl⟩
        (fun x hx => hts x (by simp [hx])) h1
    obtain ⟨s2, h2, hlast⟩ := runTurns_append.1 h
    have hreturn : StandsAt (.millisReturn s1.ms) rest s.returned s2 :=
      .after_turn (foregroundTurn_millisRead cfg hread.faults hread.frame)
        ⟨hread.faults, rfl, hread.program, hread.returned⟩ (fun x hx => hts x (by simp [hx])) h2
    have hdone : StandsAt .idle rest (.millisecondsNow s1.ms :: s.returned) t :=
      .after_turn (foregroundTurn_millisReturn cfg hreturn.faults hreturn.frame)
        ⟨hreturn.faults, rfl, hreturn.program, by simp [hreturn.returned]⟩ (by simp) hlast
    exact ⟨by simp [foregroundDescriptor, hread.faults, hread.frame, encode], hdone.returned, hdone.frame, hdone.faults,
      hdone.program⟩

/-! ### `microseconds_now()` (44 R203, R204) -/

/-- The register that the first read of the drawn order reads. -/
def ReadOrder.firstReg : ReadOrder → Reg
  | .msFirst => .ms
  | .cntFirst => .cnt

/-- The register that the second read of the drawn order reads. -/
def ReadOrder.secondReg : ReadOrder → Reg
  | .msFirst => .cnt
  | .cntFirst => .ms

/-- The frame of the first read. -/
def ReadOrder.firstFrame : ReadOrder → Frame
  | .msFirst => .microsMsThenCnt
  | .cntFirst => .microsCntThenMs

/-- The frame of the second read, after the first has read in the state `s`. -/
def ReadOrder.secondFrame (s : State) : ReadOrder → Frame
  | .msFirst => .microsCntAfter s.ms
  | .cntFirst => .microsMsAfter (zext32 s.cnt)

/-- The state in which `MS` is read, where the reads are in the states `s` and `t`. -/
def ReadOrder.msState (s t : State) : ReadOrder → State
  | .msFirst => s
  | .cntFirst => t

/-- The state in which `CNT` is read, where the reads are in the states `s` and `t`. -/
def ReadOrder.cntState (s t : State) : ReadOrder → State
  | .msFirst => t
  | .cntFirst => s

/-- Step 2 draws an order, whichever it is. -/
theorem foregroundTurn_microsDraw (cfg : ValidConfig) {s : State} (hf : s.faults = []) (hr : s.frame = .microsDraw) :
    ∃ o : ReadOrder, foregroundTurn cfg s = .next { s with frame := o.firstFrame, draws := s.draws + 1 } := by
  refine ⟨Config.freeOrder s.draws, ?_⟩
  rw [foregroundTurn_running cfg hf (by simp [hr]), procStep, hr]
  cases Config.freeOrder s.draws <;> rfl

theorem foregroundTurn_firstRead (cfg : ValidConfig) (o : ReadOrder) {s : State} (hf : s.faults = [])
    (hr : s.frame = o.firstFrame) :
    foregroundDescriptor cfg s = some (encode o.firstReg.readInstr) ∧
    foregroundTurn cfg s =
      .next { s with completion := .rdata (s.readReg o.firstReg), frame := o.secondFrame s } := by
  cases o with
  | msFirst =>
    have hr : s.frame = .microsMsThenCnt := hr
    exact ⟨by simp [foregroundDescriptor, hf, hr, ReadOrder.firstReg, Reg.offset],
      foregroundTurn_read (r := .ms) hf (by simp [hr]) (by rw [procStep, hr]; rfl)⟩
  | cntFirst =>
    have hr : s.frame = .microsCntThenMs := hr
    exact ⟨by simp [foregroundDescriptor, hf, hr, ReadOrder.firstReg, Reg.offset],
      foregroundTurn_read (r := .cnt) hf (by simp [hr]) (by rw [procStep, hr]; rfl)⟩

theorem foregroundTurn_secondRead (cfg : ValidConfig) (o : ReadOrder) {s t : State} (hf : t.faults = [])
    (hr : t.frame = o.secondFrame s) :
    foregroundDescriptor cfg t = some (encode o.secondReg.readInstr) ∧
    foregroundTurn cfg t =
      .next { t with
        completion := .rdata (t.readReg o.secondReg),
        frame := .microsConvert (o.msState s t).ms (zext32 (o.cntState s t).cnt) } := by
  cases o with
  | msFirst =>
    have hr : t.frame = .microsCntAfter s.ms := hr
    exact ⟨by simp [foregroundDescriptor, hf, hr, ReadOrder.secondReg, Reg.offset],
      foregroundTurn_read (r := .cnt) (k := fun c => .microsConvert s.ms c) hf (by simp [hr])
        (by rw [procStep, hr]; rfl)⟩
  | cntFirst =>
    have hr : t.frame = .microsMsAfter (zext32 s.cnt) := hr
    exact ⟨by simp [foregroundDescriptor, hf, hr, ReadOrder.secondReg, Reg.offset],
      foregroundTurn_read (r := .ms) (k := fun m => .microsConvert m (zext32 s.cnt)) hf (by simp [hr])
        (by rw [procStep, hr]; rfl)⟩

/-- The counter zero-extended is its own field again. -/
theorem cmpField_zext32 (c : Half) : cmpField (zext32 c) = c := by
  refine BitVec.eq_of_toNat_eq ?_
  simp only [cmpField, zext32, BitVec.extractLsb'_toNat, BitVec.toNat_setWidth, Nat.shiftRight_zero]
  have := c.isLt
  omega

theorem foregroundTurn_microsConvert (cfg : ValidConfig) {s : State} {m : Word} {c : Half} (hf : s.faults = [])
    (hr : s.frame = .microsConvert m (zext32 c)) :
    foregroundTurn cfg s = .next { s with frame := .microsReturn m (scaleToUs cfg.clock c.toNat) } := by
  rw [foregroundTurn_running cfg hf (by simp [hr]), procStep, hr]
  have hsub := ticksToUs_cmpField cfg.clock (zext32 c)
  rw [cmpField_zext32] at hsub
  simp only [cmpField_zext32, hsub]

theorem foregroundTurn_microsReturn (cfg : ValidConfig) {s : State} {m : Word} {sub : Nat} (hf : s.faults = [])
    (hr : s.frame = .microsReturn m sub) :
    foregroundTurn cfg s = .next (s.giveBack (.microsecondsNow (composeMicros m sub))) := by
  rw [foregroundTurn_running cfg hf (by simp [hr]), procStep, hr]

theorem composeMicros_eq (m : Word) (sub : Nat) :
    composeMicros m sub = BitVec.ofNat 32 ((m.toNat * 1000 + sub) % 2 ^ 32) :=
  BitVec.eq_of_toNat_eq (by simp [composeMicros])

/-- What `microseconds_now()` returns, of `MS` in the one state and `CNT` in the other (44 R203 steps 4 and 5). -/
def reading (cfg : ValidConfig) (sm sc : State) : Returned :=
  .microsecondsNow (composeMicros sm.ms (scaleToUs cfg.clock sc.cnt.toNat))

/-- An uninterrupted `microseconds_now()`, turn by turn, in the order it draws. -/
theorem microseconds_uninterrupted (cfg : ValidConfig) {s : State} {rest : List Request}
    (hc : s.calls .microsecondsNow rest) (hi : s.initDone = true) :
    ∃ o : ReadOrder, Uninterrupted cfg 6 s [encode o.firstReg.readInstr, encode o.secondReg.readInstr]
      { s with
        program := rest, draws := s.draws + 1, completion := .rdata (s.readReg o.secondReg),
        returned := reading cfg s s :: s.returned, frame := .idle } := by
  have hf := hc.1
  obtain ⟨o, hdraw⟩ :=
    foregroundTurn_microsDraw cfg (s := { s with program := rest, frame := .microsDraw }) hf rfl
  refine ⟨o, .silent (foregroundDescriptor_call cfg hc) (foregroundTurn_call cfg hc (by decide) hi) ?_⟩
  refine .silent (by simp [foregroundDescriptor, hf, Proc.secondStep]) hdraw ?_
  obtain ⟨hd1, h1⟩ := foregroundTurn_firstRead cfg o
    (s := { s with program := rest, frame := o.firstFrame, draws := s.draws + 1 }) hf rfl
  refine .issuing hd1 h1 ?_
  obtain ⟨hd2, h2⟩ := foregroundTurn_secondRead cfg o (s := s)
    (t := { s with
      program := rest, draws := s.draws + 1, completion := .rdata (s.readReg o.firstReg), frame := o.secondFrame s })
    hf rfl
  cases o with
  | msFirst | cntFirst =>
    refine .issuing hd2 h2 ?_
    refine .silent (by simp [foregroundDescriptor, hf]) (foregroundTurn_microsConvert cfg hf rfl) ?_
    exact .silent (by simp [foregroundDescriptor, hf]) (foregroundTurn_microsReturn cfg hf rfl) (.refl cfg _)

/-- With turns of the other agents between its steps, `microseconds_now()` returns the reading of `MS` and `CNT` in the
states of its two reads. -/
theorem microseconds_interleaved (cfg : ValidConfig) {s s1 s2 t : State} {rest : List Request}
    {t1 t2 t3 t4 t5 : List Turn} (hc : s.calls .microsecondsNow rest) (hi : s.initDone = true)
    (hts : ∀ x ∈ t1 ++ t2 ++ t3 ++ t4 ++ t5, x ≠ .fg) (h1 : runTurns cfg (.fg :: t1 ++ .fg :: t2) s = .next s1)
    (h2 : runTurns cfg (.fg :: t3) s1 = .next s2) (h3 : runTurns cfg (.fg :: t4 ++ .fg :: t5 ++ [.fg]) s2 = .next t) :
    ∃ o : ReadOrder, foregroundDescriptor cfg s1 = some (encode o.firstReg.readInstr) ∧
      foregroundDescriptor cfg s2 = some (encode o.secondReg.readInstr) ∧
      StandsAt .idle rest (reading cfg (o.msState s1 s2) (o.cntState s1 s2) :: s.returned) t := by
  have none1 : ∀ x ∈ t1, x ≠ .fg := fun x hx => hts x (by simp [hx])
  have none2 : ∀ x ∈ t2, x ≠ .fg := fun x hx => hts x (by simp [hx])
  have none3 : ∀ x ∈ t3, x ≠ .fg := fun x hx => hts x (by simp [hx])
  have none4 : ∀ x ∈ t4, x ≠ .fg := fun x hx => hts x (by simp [hx])
  have none5 : ∀ x ∈ t5, x ≠ .fg := fun x hx => hts x (by simp [hx])
  obtain ⟨a, hcall, hdraw⟩ := runTurns_append.1 h1
  obtain ⟨c, hmid, hreturn⟩ := runTurns_append.1 h3
  obtain ⟨b, hsecond, hconvert⟩ := runTurns_append.1 hmid
  have ha : StandsAt .microsDraw rest s.returned a :=
    .after_turn (foregroundTurn_call cfg hc (by decide) hi) ⟨hc.1, rfl, rfl, rfl⟩ none1 hcall
  obtain ⟨o, hturn⟩ := foregroundTurn_microsDraw cfg ha.faults ha.frame
  have hs1 : StandsAt o.firstFrame rest s.returned s1 :=
    .after_turn hturn ⟨ha.faults, rfl, ha.program, ha.returned⟩ none2 hdraw
  obtain ⟨hd1, hread1⟩ := foregroundTurn_firstRead cfg o hs1.faults hs1.frame
  have hs2 : StandsAt (o.secondFrame s1) rest s.returned s2 :=
    .after_turn hread1 ⟨hs1.faults, rfl, hs1.program, hs1.returned⟩ none3 h2
  obtain ⟨hd2, hread2⟩ := foregroundTurn_secondRead cfg o hs2.faults hs2.frame
  have hb : StandsAt (.microsConvert (o.msState s1 s2).ms (zext32 (o.cntState s1 s2).cnt)) rest s.returned b :=
    .after_turn hread2 ⟨hs2.faults, rfl, hs2.program, hs2.returned⟩ none4 hsecond
  have hc : StandsAt (.microsReturn (o.msState s1 s2).ms (scaleToUs cfg.clock (o.cntState s1 s2).cnt.toNat)) rest
      s.returned c :=
    .after_turn (foregroundTurn_microsConvert cfg hb.faults hb.frame) ⟨hb.faults, rfl, hb.program, hb.returned⟩ none5
      hconvert
  exact ⟨o, hd1, hd2, .after_turn (foregroundTurn_microsReturn cfg hc.faults hc.frame)
    ⟨hc.faults, rfl, hc.program, by simp [reading, hc.returned]⟩ (by simp) hreturn⟩

/-- Settles O51: uninterrupted turn by turn, and interleaved by where the foreground stands, in the order drawn. -/
theorem microsecondsNowComposesItsReads : Obligations.MicrosecondsNowComposesItsReads := by
  intro cfg s rest hc hi
  have hsub (c : Half) : ticksToUs cfg.clock c.toNat = .ok (scaleToUs cfg.clock c.toNat) :=
    ticksToUs_of_le (Nat.le_of_lt_succ c.isLt)
  refine ⟨?issued, ?alone, fun t1 t2 t3 t4 t5 s1 s2 t hts h1 h2 h3 => ?_⟩
  case issued =>
    obtain ⟨o, hissued, -⟩ := microseconds_uninterrupted cfg hc hi
    rw [hissued]
    cases o with
    | msFirst => exact .refl _
    | cntFirst => exact .swap _ _ _
  case alone =>
    obtain ⟨o, -, hrun⟩ := microseconds_uninterrupted cfg hc hi
    refine ⟨_, _, hrun, hsub s.cnt, ?_, rfl, rfl, hc.1, rfl, fun hle => ?_⟩
    · rw [← composeMicros_eq]
      rfl
    · exact (scaleToUs_mono cfg.clock hle).trans (scaleToUs_last_tick_le cfg.valid)
  obtain ⟨o, hd1, hd2, ht⟩ := microseconds_interleaved cfg hc hi hts h1 h2 h3
  refine ⟨ht.frame, ht.faults, ht.program, o.msState s1 s2, o.cntState s1 s2, _, ?_, hsub _, ?_⟩
  · cases o with
    | msFirst => exact .inl ⟨hd1, hd2, rfl, rfl⟩
    | cntFirst => exact .inr ⟨hd1, hd2, rfl, rfl⟩
  · rw [← composeMicros_eq]
    exact ht.returned

end Sys2Proof.Machine
end
